-- ==== Sys2Proof/Word.lean ====
section
/-!
DEFINITION. The plain types of the block (00_scope.md R12, R13): bytes, 16-bit values, character
strings and opaque tokens. Nothing in the block is signed (R14).
-/

namespace Sys2Proof

/-- A frame byte: 8 bits, unsigned (R12, R13). -/
abbrev Byte := BitVec 8

/-- A 16-bit unsigned value: a PM raw count or a sensor id (R12). -/
abbrev Half := BitVec 16

/-- A character string, as the sequence of its characters (the operand `idstr?` of R121 and the
rendered firmware string of R163). DESIGN CHOICE, safe: log 15. -/
abbrev Text := List Char

/-- An opaque token that the block passes through and never inspects: a caller's tag (R46) or a
transport error value (R121). DESIGN CHOICE, safe: log 14. -/
abbrev Token := Nat

end Sys2Proof
end

