-- ==== Sys2Proof/Machine/Bytes.lean ====
section
/-!
DEFINITION. Bytes and byte sequences: the notation of 00_scope.md R13 and R14, the byte order of
20_memory.md R71, and how a number lays out as bytes.
-/

namespace Sys2Proof

/-- `u8(n) = n mod 256` (R14). -/
def u8 (n : Nat) : Byte := BitVec.ofNat 8 n

/-- `hi8(id) = id[15:8]` (R14). -/
def hi8 (v : Half) : Byte := v.extractLsb' 8 8

/-- `lo8(id) = id[7:0]` (R14). -/
def lo8 (v : Half) : Byte := v.extractLsb' 0 8

/-- The 16-bit value `hi * 256 + lo` of two bytes (R71, R110). -/
def half (hi lo : Byte) : Half := hi ++ lo

/-- `B[i]`, and 0 past the end (R13). Every use is inside a frame whose length has been checked. -/
def byteAt (B : List Byte) (i : Nat) : Byte := B.getD i 0

/-- `indexOf(B, v, from)`: the least index from `start` on that holds `v` (R13). -/
def indexFrom (v : Byte) (start : Nat) (B : List Byte) : Option Nat :=
  ((B.drop start).findIdx? (fun b => b == v)).map (fun i => i + start)

/-- The sum of a byte sequence as an unbounded natural (40_codec.md R140). -/
def byteSum (B : List Byte) : Nat := (B.map BitVec.toNat).sum

/-- The first `n` bytes of a number, byte 0 (bits 7 to 0) first: how an instruction's bits, numbered as
the opcode table numbers them, lie in stream order. -/
def bytesOf : Nat → Nat → List Byte
  | 0, _ => []
  | n + 1, w => BitVec.ofNat 8 w :: bytesOf n (w / 256)

end Sys2Proof
end

