-- ==== Sys2Proof/Config.lean ====
section
/-!
DEFINITION. The configuration record: every implementation parameter of 00_scope.md R5 to R12 under
its own name, with the spec's default (92_eei_decisions.md D2), the constraints of
70_reset_and_hazards.md R365, and the one parameter no rule reads (TIME_UNIT).
-/

namespace Sys2Proof

/-- What a CLOSE does with the commands it drops (R11, R264). -/
inductive TeardownPolicy where
  | leaveUnsettled
  | failClosed
deriving DecidableEq, Repr

/-- What an enqueue after CLOSE does (R11, R255). -/
inductive ClosedEnqueuePolicy where
  | dropUnsettled
  | failClosed
deriving DecidableEq, Repr

/-- The parameters of 00_scope.md section 3. A field's default is the spec's default value. -/
structure Config where
  /-- `IN_LEN`, the inbound frame length (R5). -/
  inLen : Nat := 10
  /-- `HEAD`, the head marker (R5). -/
  head : Byte := 0xAA
  /-- `TAIL`, the tail marker (R5). -/
  tail : Byte := 0xAB
  /-- `SND_READING`, the sender byte of a reading frame (R5, R102). -/
  sndReading : Byte := 0xC0
  /-- `SND_CONFIG`, the sender byte of a configuration response (R5, R102). -/
  sndConfig : Byte := 0xC5
  /-- `OUT_LEN`, the outbound frame length (R6). -/
  outLen : Nat := 19
  /-- `HOST_SENDER`, the sender byte of every outbound command (R6). -/
  hostSender : Byte := 0xB4
  /-- `BROADCAST_ID`, the target id of a command without one (R6, R109). -/
  broadcastId : Half := 0xFFFF
  /-- `MODE_GET` (R6, R107). -/
  modeGet : Byte := 0x00
  /-- `MODE_SET` (R6, R107). -/
  modeSet : Byte := 0x01
  /-- `CMD_MODE` (R7). PRESUMED, unsafe: log 10 (the spec marks the five defaults as general knowledge). -/
  cmdMode : Byte := 0x02
  /-- `CMD_QUERY` (R7). PRESUMED, unsafe: log 10. -/
  cmdQuery : Byte := 0x04
  /-- `CMD_POWER` (R7). PRESUMED, unsafe: log 10. -/
  cmdPower : Byte := 0x06
  /-- `CMD_FIRMWARE` (R7). PRESUMED, unsafe: log 10. -/
  cmdFirmware : Byte := 0x07
  /-- `CMD_PERIOD` (R7). PRESUMED, unsafe: log 10. -/
  cmdPeriod : Byte := 0x08
  /-- `RETRY_BUDGET` (R8). -/
  retryBudget : Nat := 10
  /-- `RETRY_INTERVAL`, in time units (R8): a lower bound that no rule of the step reads (R381; log 12). -/
  retryInterval : Nat := 150
  /-- `PERIOD_MAX` (R9). -/
  periodMax : Nat := 30
  /-- `NOTAIL_DISCARD` (R10, R186). -/
  notailDiscard : Nat := 10
  /-- `CORRUPT_DISCARD` (R10, R187; 90_conflicts.md C6). -/
  corruptDiscard : Nat := 11
  /-- `TEARDOWN_POLICY` (R11, R264). -/
  teardown : TeardownPolicy := .leaveUnsettled
  /-- `CLOSED_ENQUEUE_POLICY` (R11, R255). -/
  closedEnqueue : ClosedEnqueuePolicy := .dropUnsettled
  /-- `MAX_CHUNK`, an open bound on one chunk's length, none by default (R12, D32; log 13). -/
  maxChunk : Option Nat := none
deriving DecidableEq, Repr

namespace Config

/-- The record with every parameter at the spec's default value (R5 to R12). -/
def default : Config := {}

/-- `TIME_UNIT` is left open by the spec (R8, D22) and no rule reads it. DESIGN CHOICE, safe: log 12. -/
opaque timeUnit : Nat

/-- The effective deadline of a command, in time units: the retry budget times the retry interval
(R8, R265). It is a description; no rule of the step reads it. -/
def deadline (c : Config) : Nat := c.retryBudget * c.retryInterval

/-- The constraints a configuration meets before the first transaction (R365 (1); R7, R8, R10), and
the one that R104's fixed byte positions force on `OUT_LEN` (DEDUCED, safe: log 11). -/
abbrev Ok (c : Config) : Prop :=
  [c.cmdMode, c.cmdQuery, c.cmdPower, c.cmdFirmware, c.cmdPeriod].Nodup ∧
  1 ≤ c.retryBudget ∧
  (1 ≤ c.notailDiscard ∧ c.notailDiscard ≤ c.inLen + 1) ∧
  (1 ≤ c.corruptDiscard ∧ c.corruptDiscard ≤ c.inLen + 1) ∧
  10 ≤ c.inLen ∧
  c.outLen = 19

/-- The two sender bytes the decoder tells apart differ, and so do the two mode bytes (R102, R107).
The spec lists no such constraint; its default values meet it. Only statements about every
configuration name it. -/
abbrev CodesDistinct (c : Config) : Prop :=
  c.sndReading ≠ c.sndConfig ∧ c.modeGet ≠ c.modeSet

end Config

end Sys2Proof
end

