-- ==== Sys2Proof/Syntax.lean ====
section
/-!
DEFINITION. The syntax of everything the block reads or writes, one constructor of `Instr` per row of
opcode_table.json (30_encoding.md R100 to R126), and the form in which a transaction stands on the
block's input channel: its code, whose bits the spec gives, beside its typed operands, which the spec
gives no bits (R120, R121).
-/

namespace Sys2Proof

/-- The reporting mode (10_state.md R36). -/
inductive Mode where
  | active
  | query
deriving DecidableEq, Repr

/-- Who may put a transaction on the channel (60_exceptions.md R340): the transport, the host, or the
block itself (its timer, and its own outbound writes). -/
inductive Issuer where
  | transport
  | host
  | block
deriving DecidableEq, Repr

/-- One instruction: a transaction (TXN), an outbound command frame (OUT19) or a decodable inbound
frame (IN10). A frame's constructor holds the bytes its row leaves variable. -/
inductive Instr where
  /-- PUSH, TXN `0x01` (41_framer.md R180). -/
  | push (chunk : List Byte)
  /-- TIMER, TXN `0x02`, the block's own step (43_scheduler.md R258). -/
  | timer
  /-- CLOSE, TXN `0x03` (43_scheduler.md R262). -/
  | close
  /-- TRANSPORT_ERROR, TXN `0x04` (60_exceptions.md R346). -/
  | transportError (err : Token)
  /-- ENQ_QUERY_READING, TXN `0x10` (44_commands.md R281). -/
  | enqQueryReading (tag : Token) (idstr : Option Text)
  /-- ENQ_SET_MODE, TXN `0x11` (R282); `mtok` 0 is active, 1 is query, any other value is invalid. -/
  | enqSetMode (tag : Token) (mtok : Byte) (idstr : Option Text)
  /-- ENQ_GET_MODE, TXN `0x12` (R283). -/
  | enqGetMode (tag : Token) (idstr : Option Text)
  /-- ENQ_SET_SLEEP, TXN `0x13` (R284); true means enter sleep. -/
  | enqSetSleep (tag : Token) (sleep : Bool) (idstr : Option Text)
  /-- ENQ_GET_FIRMWARE, TXN `0x14` (R285). -/
  | enqGetFirmware (tag : Token) (idstr : Option Text)
  /-- ENQ_SET_PERIOD, TXN `0x15` (R286); any integer, valid in 0 to PERIOD_MAX. -/
  | enqSetPeriod (tag : Token) (minutes : Int) (idstr : Option Text)
  /-- ENQ_GET_PERIOD, TXN `0x16` (R287). -/
  | enqGetPeriod (tag : Token) (idstr : Option Text)
  /-- OUT_QUERY_READING: target id and checksum byte (R104, R281). -/
  | outQueryReading (id : Half) (ck : Byte)
  /-- OUT_SET_MODE: ARG 0 is active, 1 is query (R108, R282). -/
  | outSetMode (mode : Mode) (id : Half) (ck : Byte)
  /-- OUT_GET_MODE (R283). -/
  | outGetMode (id : Half) (ck : Byte)
  /-- OUT_SET_SLEEP: ARG 0 is sleep (`true`), 1 is wake (R108, R284). -/
  | outSetSleep (sleep : Bool) (id : Half) (ck : Byte)
  /-- OUT_GET_FIRMWARE (R285). -/
  | outGetFirmware (id : Half) (ck : Byte)
  /-- OUT_SET_PERIOD: ARG is the minutes byte (R108, R286). -/
  | outSetPeriod (minutes : Byte) (id : Half) (ck : Byte)
  /-- OUT_GET_PERIOD (R287). -/
  | outGetPeriod (id : Half) (ck : Byte)
  /-- IN_READING: data bytes D0 to D5 and the checksum byte (R103, R159). -/
  | inReading (d0 d1 d2 d3 d4 d5 ck : Byte)
  /-- IN_MODE_RESP: D1 to D5 and the checksum byte; D0 is CMD_MODE (R103, R216). -/
  | inModeResp (d1 d2 d3 d4 d5 ck : Byte)
  /-- IN_SLEEP_RESP: D0 is CMD_POWER (R103, R217). -/
  | inSleepResp (d1 d2 d3 d4 d5 ck : Byte)
  /-- IN_FIRMWARE_RESP: D0 is CMD_FIRMWARE; D1, D2, D3 are year, month, day (R103, R218). -/
  | inFirmwareResp (d1 d2 d3 d4 d5 ck : Byte)
  /-- IN_PERIOD_RESP: D0 is CMD_PERIOD (R103, R219). -/
  | inPeriodResp (d1 d2 d3 d4 d5 ck : Byte)
deriving DecidableEq, Repr

/-- The operand lines of the input channel, one per operand kind of R121. A transaction reads the lines
its row names and no other. DESIGN CHOICE, safe: log 4 (the spec gives operands types and no bits). -/
structure Operands where
  chunk : List Byte := []
  err : Token := 0
  tag : Token := 0
  mtok : Byte := 0
  sleep : Bool := false
  minutes : Int := 0
  idstr : Option Text := none
deriving DecidableEq, Repr

/-- One entry of the input channel: who issued it (R340), its code bytes (one transaction code byte, or
the bytes of a frame, in stream order), and its operand lines. -/
structure Packet where
  issuer : Issuer
  code : List Byte
  ops : Operands := {}
deriving DecidableEq, Repr

/-- Why a packet's code names no row of the table (R122). -/
inductive DecodeError where
  /-- No code byte at all. -/
  | emptyCode
  /-- A one-byte code outside the table of R120. -/
  | unknownCode (tc : Byte)
  /-- Ten or nineteen bytes that match no IN10 or OUT19 row (R115). -/
  | unknownFrame
  /-- A length no format has (R111). -/
  | badLength (n : Nat)
deriving DecidableEq, Repr

end Sys2Proof
end

