-- ==== Sys2Proof/Machine/State.lean ====
section
/-!
DEFINITION. The state record of 10_state.md R32 as plain data, the data it is made of (pending values,
descriptors, messages, events), the state right after reset (R54), and why a
transaction can be refused.
-/

namespace Sys2Proof.Machine

open Sys2Proof

/-- The type of a Device State field: PENDING, or a value (00_scope.md R16). -/
inductive Pend (α : Type) where
  | pending
  | val (a : α)
deriving DecidableEq, Repr

/-- A firmware version: the three bytes of a firmware response (10_state.md R38). -/
structure Firmware where
  year : Byte
  month : Byte
  day : Byte
deriving DecidableEq, Repr

/-- The seven catalogue operations (10_state.md R47). -/
inductive OpKind where
  | queryReading
  | setMode
  | getMode
  | setSleep
  | getFirmware
  | setPeriod
  | getPeriod
deriving DecidableEq, Repr

/-- An operation with its requested value, the pair `op` and `req : Req(op)` of 10_state.md R46 and R48.
DEDUCED, safe: log 16 (the two fields are one value, so no mismatched pair can be written). -/
inductive Request where
  | queryReading
  | setMode (mode : Mode)
  | getMode
  | setSleep (sleep : Bool)
  | getFirmware
  | setPeriod (minutes : Byte)
  | getPeriod
deriving DecidableEq, Repr

/-- A queued command (10_state.md R46); `id = none` means broadcast. -/
structure Desc where
  req : Request
  id : Option Half
  tag : Token
deriving DecidableEq, Repr

/-- A decoded inbound message (10_state.md R52; 42_device_state.md R222). -/
inductive Msg where
  | reading (raw25 raw10 : Half)
  | mode (m : Mode)
  | sleep (sleeping : Bool)
  | firmware (year month day : Byte)
  | period (minutes : Byte)
deriving DecidableEq, Repr

/-- Why a MessageError is reported (60_exceptions.md R321, codes 1 to 3). -/
inductive MsgReason where
  | invalidFrame
  | unknownSender
  | unknownCommand
deriving DecidableEq, Repr

/-- Why a command settles with a failure (R321, codes 4 and 8). -/
inductive FailReason where
  | commandExhausted
  | connectionClosed
deriving DecidableEq, Repr

/-- Why a call is turned away at the boundary (R321, codes 5 to 7). -/
inductive InputReason where
  | invalidMode
  | periodOutOfRange
  | malformedId
deriving DecidableEq, Repr

/-- The diagnostic notices (R321, code 9). -/
inductive NoticeKind where
  | alreadyClosed
deriving DecidableEq, Repr

/-- The value a command settles with (44_commands.md R281 to R287). -/
inductive Value where
  | reading (raw25 raw10 : Half)
  | mode (m : Mode)
  | sleep (sleeping : Bool)
  | firmware (text : Text)
  | period (minutes : Byte)
deriving DecidableEq, Repr

/-- How a command settles (10_state.md R52). -/
inductive Result where
  | success (v : Value)
  | failure (r : FailReason)
deriving DecidableEq, Repr

/-- The output events (10_state.md R52). -/
inductive Event where
  | data (chunk : List Byte)
  | message (m : Msg)
  | messageError (bytes : List Byte) (r : MsgReason)
  | reading (raw25 raw10 : Half)
  | transportError (err : Token)
  | write (frame : List Byte)
  | transportClose
  | settle (tag : Token) (r : Result)
  | inputError (tag : Token) (r : InputReason)
  | notice (n : NoticeKind)
deriving DecidableEq, Repr

/-- An error of 60_exceptions.md R321 with the information it records. -/
inductive ErrorReport where
  | message (bytes : List Byte) (r : MsgReason)
  | failure (tag : Token) (r : FailReason)
  | input (tag : Token) (r : InputReason)
  | notice (n : NoticeKind)
  | transport (err : Token)
deriving DecidableEq, Repr

/-- Why the block takes no step for a transaction (70_reset_and_hazards.md R369 (c)). A step marks the refused
transaction in the state and passes over it. -/
inductive Refusal where
  /-- Raised by `exec` for an instruction that has no meaning yet. Safe: the machine stops. -/
  | notModelled (mnemonic : String)
  /-- Raised by vetting a packet whose code names no row of the table (30_encoding.md R122). Safe: the
  spec has no step there. -/
  | undecodable (e : DecodeError)
  /-- Raised by vetting a packet that a role issued which may not issue it, a TIMER from the host above
  all (30_encoding.md R122; 60_exceptions.md R340). Safe: the spec has no step there. -/
  | wrongIssuer
  /-- Raised by TIMER while the timer is not armed (43_scheduler.md R258: the step does not exist). Safe:
  the spec has no step there. -/
  | timerDisarmed
deriving DecidableEq, Repr

/-- The mark a refused transaction leaves (70_reset_and_hazards.md R369 (c)). -/
structure RefusedTxn where
  packet : Packet
  reason : Refusal
deriving DecidableEq, Repr

/-- The scheduler state (10_state.md R44). -/
inductive SchedState where
  | idle
  | processing
deriving DecidableEq, Repr

end Sys2Proof.Machine

namespace Sys2Proof.Machine

open Sys2Proof

/-- The state record `S` of 10_state.md R32, and after it the model's own three fields. -/
structure State where
  /-- The raw byte buffer (R33). -/
  buf : List Byte
  /-- PM2.5, raw count in tenths of a microgram per cubic metre (R34). -/
  pm25 : Pend Half
  /-- PM10, raw count (R35). -/
  pm10 : Pend Half
  /-- The reporting mode (R36). -/
  mode : Pend Mode
  /-- Whether the sensor sleeps (R37). -/
  sleeping : Pend Bool
  /-- The firmware version (R38). -/
  fw : Pend Firmware
  /-- The working period byte (R39). -/
  period : Pend Byte
  /-- Whether the connection has been torn down (R40). -/
  closed : Bool
  /-- The command queue, head first (R42). -/
  q : List Desc
  /-- The retry counter of the queue head (R43). -/
  rc : Nat
  /-- The scheduler state (R44). -/
  sst : SchedState
  /-- Whether the one-shot retry timer is armed (R45). -/
  timerArmed : Bool
  /-- The output trace, oldest event first (R52). -/
  out : List Event
  /-- The MODEL'S OWN field: the input channel, the triggers still to come in the order they will be
  taken (30_encoding.md R120; 60_exceptions.md R335). DESIGN CHOICE, safe: log 1. -/
  chan : List Packet
  /-- The MODEL'S OWN field: the configuration record (70_reset_and_hazards.md R365); no transaction
  writes it (10_state.md R32). DESIGN CHOICE, safe: log 9. -/
  cfg : Config
  /-- The MODEL'S OWN field: the marks of the refused transactions, oldest first
  (70_reset_and_hazards.md R369 (c)); the spec names no place for them. DESIGN CHOICE, safe: log 28. -/
  refusals : List RefusedTxn
deriving DecidableEq, Repr

/-- The machine right after reset (10_state.md R54; 70_reset_and_hazards.md R361), with nothing on the
channel, the parameters at the spec's defaults and nothing refused (DESIGN CHOICE, unsafe: log 18). -/
def State.reset : State where
  buf := []
  pm25 := .pending
  pm10 := .pending
  mode := .pending
  sleeping := .pending
  fw := .pending
  period := .pending
  closed := false
  q := []
  rc := 0
  sst := .idle
  timerArmed := false
  out := []
  chan := []
  cfg := Config.default
  refusals := []

/-- The fault reasons: none. The block has no fault state; every error it detects is an output event
and the block goes on (60_exceptions.md R320; 70_reset_and_hazards.md R369 (a)). Safe: log 25. -/
inductive Fault where
deriving DecidableEq, Repr

end Sys2Proof.Machine
end

