-- ==== Sys2Proof/Machine/Codec.lean ====
section
/-!
DEFINITION. The Frame Codec (40_codec.md): pure functions of bytes and descriptors. Checksum, inbound
validation, outbound encoding, id parsing, inbound decoding and the firmware rendering.
-/

namespace Sys2Proof.Machine

open Sys2Proof

/-- CHECKSUM (R140): the sum of `B[start..stop]` modulo 256, and no value when `stop` lies outside `B`
(D30; log 19). An empty range gives 0. -/
def checksum (B : List Byte) (start stop : Nat) : Option Byte :=
  if stop < B.length then some (u8 (byteSum ((B.take (stop + 1)).drop start))) else none

/-- VALIDATE (R142): length, head, tail and checksum. -/
def validate (c : Config) (F : List Byte) : Bool :=
  F.length == c.inLen && byteAt F 0 == c.head && byteAt F 9 == c.tail &&
    checksum F 2 7 == some (byteAt F 8)

/-- TYPE_MODE_ARG of R150: the command type, mode and argument bytes (30_encoding.md R106 to R108). -/
def typeModeArg (c : Config) : Request → Byte × Byte × Byte
  | .queryReading => (c.cmdQuery, c.modeGet, 0)
  | .setMode .active => (c.cmdMode, c.modeSet, 0)
  | .setMode .query => (c.cmdMode, c.modeSet, 1)
  | .getMode => (c.cmdMode, c.modeGet, 0)
  | .setSleep true => (c.cmdPower, c.modeSet, 0)
  | .setSleep false => (c.cmdPower, c.modeSet, 1)
  | .getFirmware => (c.cmdFirmware, c.modeGet, 0)
  | .setPeriod p => (c.cmdPeriod, c.modeSet, p)
  | .getPeriod => (c.cmdPeriod, c.modeGet, 0)

/-- The target id that goes into bytes 15 and 16 (30_encoding.md R109). -/
def targetId (c : Config) (id : Option Half) : Half := id.getD c.broadcastId

/-- Bytes 0 to 16 of an outbound frame, all before its checksum (30_encoding.md R104). -/
def outBody (c : Config) (r : Request) (id : Half) : List Byte :=
  let (t, m, a) := typeModeArg c r
  [c.head, c.hostSender, t, m, a] ++ List.replicate 10 0 ++ [hi8 id, lo8 id]

/-- The checksum byte of an outbound frame: CHECKSUM over bytes 2 to 16 (R104, R150). The range always
lies inside the 17 bytes, so the default is never taken. -/
def outChecksum (c : Config) (r : Request) (id : Half) : Byte :=
  (checksum (outBody c r id) 2 16).getD 0

/-- ENCODE (R150): the 19 bytes of an outbound command. -/
def encodeCommand (c : Config) (r : Request) (id : Option Half) : List Byte :=
  outBody c r (targetId c id) ++ [outChecksum c r (targetId c id), c.tail]

/-- The value of one hexadecimal digit, either case (R153, D15). -/
def hexVal (ch : Char) : Option (BitVec 4) :=
  let n := ch.toNat
  if 48 ≤ n ∧ n ≤ 57 then some (BitVec.ofNat 4 (n - 48))
  else if 97 ≤ n ∧ n ≤ 102 then some (BitVec.ofNat 4 (n - 87))
  else if 65 ≤ n ∧ n ≤ 70 then some (BitVec.ofNat 4 (n - 55))
  else none

/-- PARSE_ID (R153): absent means broadcast; four hexadecimal digits make an id; all else is malformed. -/
def parseId : Option Text → Except InputReason (Option Half)
  | none => .ok none
  | some [a, b, c, d] =>
    match hexVal a, hexVal b, hexVal c, hexVal d with
    | some x, some y, some z, some w => .ok (some (x ++ y ++ z ++ w))
    | _, _, _, _ => .error .malformedId
  | some _ => .error .malformedId

/-- DECODE_READING (R159): two little-endian raw counts. -/
def decodeReading (F : List Byte) : Msg :=
  .reading (half (byteAt F 3) (byteAt F 2)) (half (byteAt F 5) (byteAt F 4))

/-- DECODE_CONFIG (R160): dispatch on the echoed command type, byte 2. -/
def decodeConfig (c : Config) (F : List Byte) : Except MsgReason Msg :=
  let t := byteAt F 2
  if t = c.cmdMode then .ok (.mode (if byteAt F 4 = 0 then .active else .query))
  else if t = c.cmdPower then .ok (.sleep (byteAt F 4 == 0))
  else if t = c.cmdFirmware then .ok (.firmware (byteAt F 3) (byteAt F 4) (byteAt F 5))
  else if t = c.cmdPeriod then .ok (.period (byteAt F 4))
  else .error .unknownCommand

/-- DECODE_FRAME (R161): dispatch on the sender, byte 1. -/
def decodeFrame (c : Config) (F : List Byte) : Except MsgReason Msg :=
  if byteAt F 1 = c.sndReading then .ok (decodeReading F)
  else if byteAt F 1 = c.sndConfig then decodeConfig c F
  else .error .unknownSender

/-- One decimal digit. -/
def digit (n : Nat) : Char := Char.ofNat (48 + n)

/-- `pad2` of R163: the decimal numeral of a byte, at least two characters. -/
def pad2 (b : Byte) : Text :=
  let n := b.toNat
  if n < 100 then [digit (n / 10), digit (n % 10)]
  else [digit (n / 100), digit (n / 10 % 10), digit (n % 10)]

/-- RENDER_FW (R163). -/
def renderFw (f : Firmware) : Text :=
  pad2 f.year ++ ['-'] ++ pad2 f.month ++ ['-'] ++ pad2 f.day

/-- The ten bytes of an inbound frame from its fields (30_encoding.md R100). -/
def inFrame (c : Config) (sender d0 d1 d2 d3 d4 d5 ck : Byte) : List Byte :=
  [c.head, sender, d0, d1, d2, d3, d4, d5, ck, c.tail]

/-- The checksum byte a valid inbound frame with these data bytes has (R100). -/
def dataChecksum (d0 d1 d2 d3 d4 d5 : Byte) : Byte := u8 (byteSum [d0, d1, d2, d3, d4, d5])

/-- ENCODE_READING_FRAME (R165): a test helper the spec names, not part of the block. -/
def encodeReadingFrame (c : Config) (raw25 raw10 : Half) : List Byte :=
  inFrame c c.sndReading (lo8 raw25) (hi8 raw25) (lo8 raw10) (hi8 raw10) 0 0
    (dataChecksum (lo8 raw25) (hi8 raw25) (lo8 raw10) (hi8 raw10) 0 0)

/-- The concentration a raw count stands for: exactly `raw / 10` micrograms per cubic metre
(42_device_state.md R214). -/
def concentration (raw : Half) : Rat := (raw.toNat : Rat) / 10

end Sys2Proof.Machine
end

