-- ==== Sys2Proof/WellFormed.lean ====
section
/-!
DEFINITION. Which instructions are well formed: what the encoder and the transport owe the block. An
operand that the spec gives an error event (a bad mode token, minutes out of range, a malformed id, a
wrong inbound checksum) is well formed here, because the block has a meaning for it.
-/

namespace Sys2Proof

open Machine

/-- Well-formedness. A chunk keeps within MAX_CHUNK where a bound is configured (00_scope.md R12, log 13).
An outbound frame carries the checksum ENCODE computes (30_encoding.md R105), and a period frame a
requested value in range (R108). -/
def Instr.wf (c : Config) : Instr → Bool
  | .push chunk =>
    match c.maxChunk with
    | none => true
    | some n => decide (chunk.length ≤ n)
  | .timer => true
  | .close => true
  | .transportError _ => true
  | .enqQueryReading _ _ => true
  | .enqSetMode _ _ _ => true
  | .enqGetMode _ _ => true
  | .enqSetSleep _ _ _ => true
  | .enqGetFirmware _ _ => true
  | .enqSetPeriod _ _ _ => true
  | .enqGetPeriod _ _ => true
  | .outQueryReading id ck => ck == outChecksum c .queryReading id
  | .outSetMode m id ck => ck == outChecksum c (.setMode m) id
  | .outGetMode id ck => ck == outChecksum c .getMode id
  | .outSetSleep b id ck => ck == outChecksum c (.setSleep b) id
  | .outGetFirmware id ck => ck == outChecksum c .getFirmware id
  | .outSetPeriod p id ck => ck == outChecksum c (.setPeriod p) id && decide (p.toNat ≤ c.periodMax)
  | .outGetPeriod id ck => ck == outChecksum c .getPeriod id
  | .inReading _ _ _ _ _ _ _ => true
  | .inModeResp _ _ _ _ _ _ => true
  | .inSleepResp _ _ _ _ _ _ => true
  | .inFirmwareResp _ _ _ _ _ _ => true
  | .inPeriodResp _ _ _ _ _ _ => true

end Sys2Proof
end

