-- ==== Sys2Proof/Decode.lean ====
section
/-!
DEFINITION. The decoder of channel packets, total on any bytes and rejecting by name (30_encoding.md
R100 to R122), and after it the encoder, written from the same tables. A one-byte code is a transaction
code; ten bytes are an inbound frame, nineteen an outbound one (R111).
-/

namespace Sys2Proof

open Machine

/-- The transaction table of R120: the code selects the row, the row reads its operand lines (R121). -/
def decodeTxn (tc : Byte) (o : Operands) : Except DecodeError Instr :=
  if tc = 0x01 then .ok (.push o.chunk)
  else if tc = 0x02 then .ok .timer
  else if tc = 0x03 then .ok .close
  else if tc = 0x04 then .ok (.transportError o.err)
  else if tc = 0x10 then .ok (.enqQueryReading o.tag o.idstr)
  else if tc = 0x11 then .ok (.enqSetMode o.tag o.mtok o.idstr)
  else if tc = 0x12 then .ok (.enqGetMode o.tag o.idstr)
  else if tc = 0x13 then .ok (.enqSetSleep o.tag o.sleep o.idstr)
  else if tc = 0x14 then .ok (.enqGetFirmware o.tag o.idstr)
  else if tc = 0x15 then .ok (.enqSetPeriod o.tag o.minutes o.idstr)
  else if tc = 0x16 then .ok (.enqGetPeriod o.tag o.idstr)
  else .error (.unknownCode tc)

/-- The five IN10 rows (R100, R103): sender, then for a configuration response the echoed type D0. -/
def decodeIn (c : Config) (h s d0 d1 d2 d3 d4 d5 ck t : Byte) : Except DecodeError Instr :=
  if h ≠ c.head ∨ t ≠ c.tail then .error .unknownFrame
  else if s = c.sndReading then .ok (.inReading d0 d1 d2 d3 d4 d5 ck)
  else if s ≠ c.sndConfig then .error .unknownFrame
  else if d0 = c.cmdMode then .ok (.inModeResp d1 d2 d3 d4 d5 ck)
  else if d0 = c.cmdPower then .ok (.inSleepResp d1 d2 d3 d4 d5 ck)
  else if d0 = c.cmdFirmware then .ok (.inFirmwareResp d1 d2 d3 d4 d5 ck)
  else if d0 = c.cmdPeriod then .ok (.inPeriodResp d1 d2 d3 d4 d5 ck)
  else .error .unknownFrame

/-- The row of an OUT19 frame with MODE = MODE_GET, and ARG 0 (R106 to R108). -/
def decodeOutGet (c : Config) (ty arg : Byte) (id : Half) (ck : Byte) : Except DecodeError Instr :=
  if arg ≠ 0 then .error .unknownFrame
  else if ty = c.cmdQuery then .ok (.outQueryReading id ck)
  else if ty = c.cmdMode then .ok (.outGetMode id ck)
  else if ty = c.cmdFirmware then .ok (.outGetFirmware id ck)
  else if ty = c.cmdPeriod then .ok (.outGetPeriod id ck)
  else .error .unknownFrame

/-- The row of an OUT19 frame with MODE = MODE_SET (R106 to R108). -/
def decodeOutSet (c : Config) (ty arg : Byte) (id : Half) (ck : Byte) : Except DecodeError Instr :=
  if ty = c.cmdMode then
    if arg = 0 then .ok (.outSetMode .active id ck)
    else if arg = 1 then .ok (.outSetMode .query id ck)
    else .error .unknownFrame
  else if ty = c.cmdPower then
    if arg = 0 then .ok (.outSetSleep true id ck)
    else if arg = 1 then .ok (.outSetSleep false id ck)
    else .error .unknownFrame
  else if ty = c.cmdPeriod then .ok (.outSetPeriod arg id ck)
  else .error .unknownFrame

/-- The seven OUT19 rows (R104 and the table after R109). -/
def decodeOut (c : Config) (h s ty m arg : Byte) (rsv : List Byte) (hi lo ck t : Byte) :
    Except DecodeError Instr :=
  if h ≠ c.head ∨ s ≠ c.hostSender ∨ t ≠ c.tail ∨ rsv ≠ List.replicate 10 0 then .error .unknownFrame
  else if m = c.modeGet then decodeOutGet c ty arg (half hi lo) ck
  else if m = c.modeSet then decodeOutSet c ty arg (half hi lo) ck
  else .error .unknownFrame

/-- The decoder: the instruction a packet's code and operand lines stand for. -/
def decode (c : Config) (code : List Byte) (o : Operands) : Except DecodeError Instr :=
  match code with
  | [] => .error .emptyCode
  | [tc] => decodeTxn tc o
  | [h, s, d0, d1, d2, d3, d4, d5, ck, t] => decodeIn c h s d0 d1 d2 d3 d4 d5 ck t
  | [h, s, ty, m, arg, r0, r1, r2, r3, r4, r5, r6, r7, r8, r9, hi, lo, ck, t] =>
    decodeOut c h s ty m arg [r0, r1, r2, r3, r4, r5, r6, r7, r8, r9] hi lo ck t
  | bytes => .error (.badLength bytes.length)

/-- Which role may issue an instruction (60_exceptions.md R340; 30_encoding.md R120): chunks, inbound
frames and transport errors come from the transport, requests and CLOSE from the host, TIMER and the
outbound frames from the block itself. -/
def Instr.issuer : Instr → Issuer
  | .push _ => .transport
  | .timer => .block
  | .close => .host
  | .transportError _ => .transport
  | .enqQueryReading _ _ => .host
  | .enqSetMode _ _ _ => .host
  | .enqGetMode _ _ => .host
  | .enqSetSleep _ _ _ => .host
  | .enqGetFirmware _ _ => .host
  | .enqSetPeriod _ _ _ => .host
  | .enqGetPeriod _ _ => .host
  | .outQueryReading _ _ => .block
  | .outSetMode _ _ _ => .block
  | .outGetMode _ _ => .block
  | .outSetSleep _ _ _ => .block
  | .outGetFirmware _ _ => .block
  | .outSetPeriod _ _ _ => .block
  | .outGetPeriod _ _ => .block
  | .inReading _ _ _ _ _ _ _ => .transport
  | .inModeResp _ _ _ _ _ _ => .transport
  | .inSleepResp _ _ _ _ _ _ => .transport
  | .inFirmwareResp _ _ _ _ _ _ => .transport
  | .inPeriodResp _ _ _ _ _ _ => .transport

/-- The bytes of an outbound frame with a given checksum byte (R104). -/
def outFrame (c : Config) (r : Request) (id : Half) (ck : Byte) : List Byte :=
  outBody c r id ++ [ck, c.tail]

/-- The code bytes of an instruction: its transaction code, or its frame's bytes in stream order. -/
def encodeCode (c : Config) : Instr → List Byte
  | .push _ => [0x01]
  | .timer => [0x02]
  | .close => [0x03]
  | .transportError _ => [0x04]
  | .enqQueryReading _ _ => [0x10]
  | .enqSetMode _ _ _ => [0x11]
  | .enqGetMode _ _ => [0x12]
  | .enqSetSleep _ _ _ => [0x13]
  | .enqGetFirmware _ _ => [0x14]
  | .enqSetPeriod _ _ _ => [0x15]
  | .enqGetPeriod _ _ => [0x16]
  | .outQueryReading id ck => outFrame c .queryReading id ck
  | .outSetMode m id ck => outFrame c (.setMode m) id ck
  | .outGetMode id ck => outFrame c .getMode id ck
  | .outSetSleep b id ck => outFrame c (.setSleep b) id ck
  | .outGetFirmware id ck => outFrame c .getFirmware id ck
  | .outSetPeriod p id ck => outFrame c (.setPeriod p) id ck
  | .outGetPeriod id ck => outFrame c .getPeriod id ck
  | .inReading d0 d1 d2 d3 d4 d5 ck => inFrame c c.sndReading d0 d1 d2 d3 d4 d5 ck
  | .inModeResp d1 d2 d3 d4 d5 ck => inFrame c c.sndConfig c.cmdMode d1 d2 d3 d4 d5 ck
  | .inSleepResp d1 d2 d3 d4 d5 ck => inFrame c c.sndConfig c.cmdPower d1 d2 d3 d4 d5 ck
  | .inFirmwareResp d1 d2 d3 d4 d5 ck => inFrame c c.sndConfig c.cmdFirmware d1 d2 d3 d4 d5 ck
  | .inPeriodResp d1 d2 d3 d4 d5 ck => inFrame c c.sndConfig c.cmdPeriod d1 d2 d3 d4 d5 ck

/-- The operand lines an instruction drives; every line its row does not name is zero (R121). -/
def encodeOps : Instr → Operands
  | .push chunk => { chunk := chunk }
  | .transportError err => { err := err }
  | .enqQueryReading tag idstr => { tag := tag, idstr := idstr }
  | .enqSetMode tag mtok idstr => { tag := tag, mtok := mtok, idstr := idstr }
  | .enqGetMode tag idstr => { tag := tag, idstr := idstr }
  | .enqSetSleep tag sleep idstr => { tag := tag, sleep := sleep, idstr := idstr }
  | .enqGetFirmware tag idstr => { tag := tag, idstr := idstr }
  | .enqSetPeriod tag minutes idstr => { tag := tag, minutes := minutes, idstr := idstr }
  | .enqGetPeriod tag idstr => { tag := tag, idstr := idstr }
  | .timer | .close => {}
  | .outQueryReading _ _ | .outSetMode _ _ _ | .outGetMode _ _ | .outSetSleep _ _ _ => {}
  | .outGetFirmware _ _ | .outSetPeriod _ _ _ | .outGetPeriod _ _ => {}
  | .inReading _ _ _ _ _ _ _ | .inModeResp _ _ _ _ _ _ | .inSleepResp _ _ _ _ _ _ => {}
  | .inFirmwareResp _ _ _ _ _ _ | .inPeriodResp _ _ _ _ _ _ => {}

/-- The encoder: the packet in which the role that may issue an instruction puts it on the channel. -/
def encode (c : Config) (i : Instr) : Packet :=
  { issuer := i.issuer, code := encodeCode c i, ops := encodeOps i }

/-- The instruction the decoder reads from `nbits` bits numbered as the opcode table numbers them (bit 0
the least significant bit of the first byte), with every operand line zero and the parameters at their
defaults. -/
def decodeTableWord (nbits w : Nat) : Option Instr :=
  match decode Config.default (bytesOf (nbits / 8) w) {} with
  | .ok i => some i
  | .error _ => none

end Sys2Proof
end

