-- ==== Sys2Proof/Machine/Ops.lean ====
section
/-!
DEFINITION. The named operations over State: emitting an event, the two buffer primitives, reporting an
error (the block's whole exception mechanism), refusing a transaction, and taking the next one from the
channel.
-/

namespace Sys2Proof.Machine

open Sys2Proof

/-- `emit E` (00_scope.md R17): append to the output trace. -/
def emit (e : Event) (s : State) : State := { s with out := s.out ++ [e] }

/-- `BufAppend(chunk)` (20_memory.md R72). -/
def bufAppend (chunk : List Byte) (s : State) : State := { s with buf := s.buf ++ chunk }

/-- `BufDrop(n)` (20_memory.md R72). -/
def bufDrop (n : Nat) (s : State) : State := { s with buf := s.buf.drop n }

/-- The event an error is reported by (60_exceptions.md R321). -/
def errorEvent : ErrorReport → Event
  | .message bytes r => .messageError bytes r
  | .failure tag r => .settle tag (.failure r)
  | .input tag r => .inputError tag r
  | .notice n => .notice n
  | .transport err => .transportError err

/-- The error code table of R321. -/
def errorCode : ErrorReport → Nat
  | .message _ .invalidFrame => 1
  | .message _ .unknownSender => 2
  | .message _ .unknownCommand => 3
  | .failure _ .commandExhausted => 4
  | .input _ .invalidMode => 5
  | .input _ .periodOutOfRange => 6
  | .input _ .malformedId => 7
  | .failure _ .connectionClosed => 8
  | .notice .alreadyClosed => 9
  | .transport _ => 10

/-- Reporting an error (R17, R320, R338): exactly one event, and nothing else changes. No state is saved,
no mode or mask changes, control goes nowhere, so there is no return from it either (R339). Every
error of the block goes through this one operation. -/
def raise (e : ErrorReport) (s : State) : State := emit (errorEvent e) s

/-- Refusing a transaction (70_reset_and_hazards.md R369 (c)): it is marked in the state and has no meaning, so
none of the block's own elements changes (30_encoding.md R122). Log 28. -/
def turnAway (p : Packet) (r : Refusal) (s : State) : State :=
  { s with refusals := s.refusals ++ [{ packet := p, reason := r }] }

/-- Whether a packet may run: its code names a row (R122) and its issuer may issue it (R340). -/
def vetPacket (c : Config) (p : Packet) : Except Refusal Instr :=
  match decode c p.code p.ops with
  | .error e => .error (.undecodable e)
  | .ok i => if p.issuer = i.issuer then .ok i else .error .wrongIssuer

/-- The packet of the block's own TIMER step (30_encoding.md R120). -/
def timerPacket : Packet := { issuer := .block, code := [0x02] }

/-- The next transaction (60_exceptions.md R330, R335) and the state without it: the first packet on the
channel; with nothing on the channel the block's own timer if it is armed (43_scheduler.md R258, R259),
and otherwise none: the block waits (70_reset_and_hazards.md R367). DEDUCED, safe: log 3. -/
def nextPacket (s : State) : Option (Packet × State) :=
  match s.chan with
  | p :: rest => some (p, { s with chan := rest })
  | [] => if s.timerArmed then some (timerPacket, s) else none

/-- What a step answers when a packet's instruction has answered: a refused instruction is marked like any
other refused transaction, and the packets behind it go on. Only a TIMER that is not armed is one
(43_scheduler.md R258; vector SC-19; log 28). -/
def orTurnAway (p : Packet) (s : State) (o : Host.Outcome State Fault Refusal) :
    Host.Outcome State Fault Refusal :=
  match o with
  | .next t => .next t
  | .fault f => .fault f
  | .refused r => .next (turnAway p r s)

/-- The packet that puts an instruction with the given code bytes and zero operand lines on the channel,
issued by the role that may issue it. -/
def packetOf (c : Config) (code : List Byte) : Packet :=
  match decode c code {} with
  | .ok i => { issuer := i.issuer, code := code }
  | .error _ => { issuer := .host, code := code }

/-- The state with a packet placed where `nextPacket` takes its next one. A TIMER exists only while the timer
is armed, so placing one arms it (log 2). -/
def placePacket (p : Packet) (s : State) : State :=
  { s with chan := p :: s.chan, timerArmed := s.timerArmed || p.code == [0x02] }

end Sys2Proof.Machine
end

