-- ==== Sys2Proof/Machine/Operands.lean ====
section
/-!
DEFINITION. The operand forms of the ENQ_* transactions and their call-boundary checks (30_encoding.md
R121; 44_commands.md R280). The sensor id's form is `parseId` of the codec (40_codec.md R153).
-/

namespace Sys2Proof.Machine

open Sys2Proof

/-- The operation of a request (10_state.md R46, R47). -/
def requestOp : Request → OpKind
  | .queryReading => .queryReading
  | .setMode _ => .setMode
  | .getMode => .getMode
  | .setSleep _ => .setSleep
  | .getFirmware => .getFirmware
  | .setPeriod _ => .setPeriod
  | .getPeriod => .getPeriod

/-- The mode token: 0 is active, 1 is query, any other value is invalid (R121, R280). -/
def modeOperand (mtok : Byte) : Except InputReason Request :=
  if mtok = 0 then .ok (.setMode .active)
  else if mtok = 1 then .ok (.setMode .query)
  else .error .invalidMode

/-- The minutes operand: valid from 0 to PERIOD_MAX inclusive (R9, R280). -/
def periodOperand (c : Config) (minutes : Int) : Except InputReason Request :=
  if minutes < 0 ∨ (c.periodMax : Int) < minutes then .error .periodOutOfRange
  else .ok (.setPeriod (u8 minutes.toNat))

end Sys2Proof.Machine
end

