-- ==== Sys2Proof/Machine/Flags.lean ====
section
/-!
DEFINITION. The block's status: it has no condition codes (10_state.md R50), only the Boolean status of
`closed`, `timerArmed`, `sst` and whether a field is PENDING, and the packed register view of R51.
-/

namespace Sys2Proof.Machine

open Sys2Proof

/-- `isPending(x)` (00_scope.md R16). -/
def isPending {α : Type} : Pend α → Bool
  | .pending => true
  | .val _ => false

/-- The V bit of a packed Pend field: 1 for a value (R51). -/
def pendBit {α : Type} : Pend α → BitVec 1
  | .pending => 0
  | .val _ => 1

/-- The value bits of a packed Pend field: 0 while PENDING (R51). -/
def pendBits {α : Type} {w : Nat} (f : α → BitVec w) : Pend α → BitVec w
  | .pending => 0
  | .val a => f a

/-- The mode bit: 0 ACTIVE, 1 QUERY (R51). -/
def modeBit : Mode → BitVec 1
  | .active => 0
  | .query => 1

/-- Register 0, PM25 (R51): V, RAW. -/
def regPm25 (s : State) : BitVec 17 := pendBit s.pm25 ++ pendBits (fun v => v) s.pm25

/-- Register 1, PM10 (R51): V, RAW. -/
def regPm10 (s : State) : BitVec 17 := pendBit s.pm10 ++ pendBits (fun v => v) s.pm10

/-- Register 2, MODE (R51): V, M. -/
def regMode (s : State) : BitVec 2 := pendBit s.mode ++ pendBits modeBit s.mode

/-- Register 3, SLEEP (R51): V, S. -/
def regSleep (s : State) : BitVec 2 := pendBit s.sleeping ++ pendBits BitVec.ofBool s.sleeping

/-- Register 4, FW (R51): V, YEAR, MONTH, DAY. -/
def regFw (s : State) : BitVec 25 :=
  pendBit s.fw ++ (pendBits (fun f => f.year ++ f.month ++ f.day) s.fw : BitVec 24)

/-- Register 5, PERIOD (R51): V, MIN. -/
def regPeriod (s : State) : BitVec 9 := pendBit s.period ++ pendBits (fun b => b) s.period

/-- Register 6, CLOSED (R51). -/
def regClosed (s : State) : BitVec 1 := BitVec.ofBool s.closed

/-- Register 7, SCHED (R51): bit 1 TIMER_ARMED, bit 0 SST. -/
def regSched (s : State) : BitVec 2 :=
  BitVec.ofBool s.timerArmed ++ BitVec.ofBool (s.sst == .processing)

/-- The width of register 8: the ceiling of log2(RETRY_BUDGET + 2) (R51, R244). -/
def rcWidth (c : Config) : Nat := Nat.log2 (c.retryBudget + 1) + 1

/-- Register 8, RC (R51). -/
def regRc (s : State) : BitVec (rcWidth s.cfg) := BitVec.ofNat _ s.rc

/-- Register 9, QLEN (R51): derived, unbounded. -/
def regQlen (s : State) : Nat := s.q.length

/-- The status register view by number (R51): an observation, not a transaction (42_device_state.md
R210). No register has a number above 9. -/
def readReg (s : State) (n : Nat) : Option Nat :=
  match n with
  | 0 => some (regPm25 s).toNat
  | 1 => some (regPm10 s).toNat
  | 2 => some (regMode s).toNat
  | 3 => some (regSleep s).toNat
  | 4 => some (regFw s).toNat
  | 5 => some (regPeriod s).toNat
  | 6 => some (regClosed s).toNat
  | 7 => some (regSched s).toNat
  | 8 => some (regRc s).toNat
  | 9 => some (regQlen s)
  | _ => none

end Sys2Proof.Machine
end

