-- ==== Sys2Proof/Machine/Device.lean ====
section
/-!
DEFINITION. Device State (42_device_state.md): the decode path's writers, the events it emits, and the
scheduler's prepare writer. No other operation writes the six sensor-observed fields (10_state.md R41).
-/

namespace Sys2Proof.Machine

open Sys2Proof

/-- APPLY: applyReading (R212) writes both PM fields, applyConfig (R215 to R219) exactly one field. -/
def apply (m : Msg) (s : State) : State :=
  match m with
  | .reading a b => { s with pm25 := .val a, pm10 := .val b }
  | .mode x => { s with mode := .val x }
  | .sleep b => { s with sleeping := .val b }
  | .firmware y mo d => { s with fw := .val { year := y, month := mo, day := d } }
  | .period p => { s with period := .val p }

/-- The Reading event of R213: only for a reading with both raw counts above zero. -/
def announce (m : Msg) (s : State) : State :=
  match m with
  | .reading a b => if 0 < a.toNat ∧ 0 < b.toNat then emit (.reading a b) s else s
  | .mode _ => s
  | .sleep _ => s
  | .firmware _ _ _ => s
  | .period _ => s

/-- HANDLE_VALID (R211): a decode failure is reported and changes nothing else; a decoded message is
applied, passed through, and perhaps announced, in that order. -/
def handleValid (F : List Byte) (s : State) : State :=
  match decodeFrame s.cfg F with
  | .error r => raise (.message F r) s
  | .ok m => announce m (emit (.message m) (apply m s))

/-- PREPARE (R220): PENDING into exactly the fields the operation observes. -/
def prepare (op : OpKind) (s : State) : State :=
  match op with
  | .queryReading => { s with pm25 := .pending, pm10 := .pending }
  | .setMode => { s with mode := .pending }
  | .getMode => { s with mode := .pending }
  | .setSleep => { s with sleeping := .pending }
  | .getFirmware => { s with fw := .pending }
  | .setPeriod => { s with period := .pending }
  | .getPeriod => { s with period := .pending }

end Sys2Proof.Machine
end

