-- ==== Sys2Proof/Machine/Framer.lean ====
section
/-!
DEFINITION. The Byte Stream Framer (41_framer.md): the sliding-window extraction loop and the meaning of
PUSH. The window is always at index 0 (R183).
-/

namespace Sys2Proof.Machine

open Sys2Proof

/-- Steps 6 and 7 on a candidate whose bytes have left the buffer (R190, R191). -/
def dispose (cand : List Byte) (s : State) : State :=
  if validate s.cfg cand then handleValid cand s else raise (.message cand .invalidFrame) s

/-- Step 5 (R189): cut the candidate off the front, then dispose of it. -/
def takeCandidate (s : State) : State :=
  dispose (s.buf.take s.cfg.inLen) (bufDrop s.cfg.inLen s)

/-- Steps 3 to 7 with a head marker at index 0: the tail search runs from index IN_LEN - 1 to the end of
the buffer (R186 to R189). -/
def scanHead (s : State) : State :=
  match indexFrom s.cfg.tail (s.cfg.inLen - 1) s.buf with
  | none => bufDrop s.cfg.notailDiscard s
  | some t => if t = s.cfg.inLen - 1 then takeCandidate s else bufDrop s.cfg.corruptDiscard s

/-- One iteration of EXTRACT's loop body (R182) and whether the loop goes on: step 1 clears a buffer with
no head and stops, step 2 drops the garbage before the head, the rest is `scanHead`. -/
def scan (s : State) : State × Bool :=
  match indexFrom s.cfg.head 0 s.buf with
  | none => ({ s with buf := [] }, false)
  | some 0 => (scanHead s, true)
  | some (h + 1) => (bufDrop (h + 1) s, true)

/-- EXTRACT's loop with a bound on its iterations; every iteration that goes on removes a byte (R192). -/
def extractLoop : Nat → State → State
  | 0, s => s
  | n + 1, s =>
    if s.buf.length < s.cfg.inLen then s
    else
      match scan s with
      | (t, true) => extractLoop n t
      | (t, false) => t

/-- EXTRACT (R182). The buffer's length bounds the iterations (R192; log 20). -/
def extract (s : State) : State := extractLoop s.buf.length s

/-- PUSH (R181): nothing at all once closed; else the raw-data event, the append, the extraction. -/
def push (chunk : List Byte) (s : State) : State :=
  if s.closed then s else extract (bufAppend chunk (emit (.data chunk) s))

/-- PUSH, TXN `0x01` (R180, R181). -/
def execPush (chunk : List Byte) (s : State) : Host.Outcome State Fault Refusal := .next (push chunk s)

end Sys2Proof.Machine
end

