-- ==== Sys2Proof/Machine/Scheduler.lean ====
section
/-!
DEFINITION. The Command Scheduler (43_scheduler.md): the four operations on a descriptor (R241), the tick
(R245), the enqueue core (R255), and the meanings of TIMER (R258) and CLOSE (R262).
-/

namespace Sys2Proof.Machine

open Sys2Proof

/-- RESULT where FULFILLED holds, and nothing where it does not (R241; 44_commands.md R281 to R287): the
requested value once the field reports it, or the observed value once it is no longer pending. -/
def outcome (r : Request) (s : State) : Option Value :=
  match r with
  | .queryReading =>
    match s.pm25, s.pm10 with
    | .val a, .val b => some (.reading a b)
    | _, _ => none
  | .setMode m => if s.mode = .val m then some (.mode m) else none
  | .getMode =>
    match s.mode with
    | .val m => some (.mode m)
    | .pending => none
  | .setSleep b => if s.sleeping = .val b then some (.sleep b) else none
  | .getFirmware =>
    match s.fw with
    | .val f => some (.firmware (renderFw f))
    | .pending => none
  | .setPeriod p => if s.period = .val p then some (.period p) else none
  | .getPeriod =>
    match s.period with
    | .val p => some (.period p)
    | .pending => none

/-- FULFILLED(d, S) (R241). -/
def fulfilled (d : Desc) (s : State) : Bool := (outcome d.req s).isSome

/-- The frame a descriptor writes on every retry (R249). -/
def descFrame (c : Config) (d : Desc) : List Byte := encodeCommand c d.req d.id

/-- EXECUTE(d) (R241): one Write of the descriptor's frame. -/
def execute (d : Desc) (s : State) : State := emit (.write (descFrame s.cfg d)) s

/-- Step 2 of a tick (R246): prepare on the head's first tick only. -/
def prepareFirst (d : Desc) (s : State) : State :=
  if s.rc = 0 then prepare (requestOp d.req) s else s

/-- Step 3's increment (R247). -/
def countTick (s : State) : State := { s with rc := s.rc + 1 }

/-- Popping the head: the queue behind it, and the counter back to 0 (R247, R248). -/
def popHead (rest : List Desc) (s : State) : State := { s with q := rest, rc := 0 }

/-- Step 5 (R249): write, arm the timer, end the tick. -/
def executeAndWait (d : Desc) (s : State) : State := { execute d s with timerArmed := true }

/-- Step 1 (R245): an empty queue ends the tick idle. -/
def goIdle (s : State) : State := { s with sst := .idle, timerArmed := false }

/-- The loop of a tick over the queue, head first (R245); each iteration but the last pops a descriptor
(R254; log 20). The budget test comes before the predicate (R247, R248). -/
def tickQueue : List Desc → State → State
  | [], s => goIdle s
  | d :: rest, s =>
    let s1 := countTick (prepareFirst d s)
    if s1.cfg.retryBudget < s1.rc then
      tickQueue rest (popHead rest (raise (.failure d.tag .commandExhausted) s1))
    else
      match outcome d.req s1 with
      | some v => tickQueue rest (popHead rest (emit (.settle d.tag (.success v)) s1))
      | none => executeAndWait d s1

/-- TICK (R245). -/
def tick (s : State) : State := tickQueue s.q s

/-- ENQUEUE (R255, R256): by policy when closed; else to the tail of the queue, with a first tick at once
when the scheduler was idle. -/
def enqueue (d : Desc) (s : State) : State :=
  if s.closed then
    match s.cfg.closedEnqueue with
    | .failClosed => raise (.failure d.tag .connectionClosed) s
    | .dropUnsettled => s
  else if s.sst = .idle then tick { s with q := s.q ++ [d], sst := .processing }
  else { s with q := s.q ++ [d] }

/-- Settling each dropped descriptor, in queue order (R264). -/
def failAll : List Desc → State → State
  | [], s => s
  | d :: rest, s => failAll rest (raise (.failure d.tag .connectionClosed) s)

/-- The state part of a first CLOSE (R262). -/
def shut (s : State) : State :=
  { s with closed := true, q := [], rc := 0, sst := .idle, timerArmed := false, buf := [] }

/-- CLOSE (R262 to R264). -/
def closeBlock (s : State) : State :=
  if s.closed then raise (.notice .alreadyClosed) s
  else
    match s.cfg.teardown with
    | .leaveUnsettled => emit .transportClose (shut s)
    | .failClosed => emit .transportClose (failAll s.q (shut s))

/-- The step of an armed timer (R258): disarm it, then one tick. -/
def fireTimer (s : State) : State := tick { s with timerArmed := false }

/-- TIMER, TXN `0x02` (R258): while the timer is not armed the step does not exist. -/
def execTimer (s : State) : Host.Outcome State Fault Refusal :=
  if s.timerArmed then .next (fireTimer s) else .refused .timerDisarmed

/-- CLOSE, TXN `0x03` (R262). -/
def execClose (s : State) : Host.Outcome State Fault Refusal := .next (closeBlock s)

end Sys2Proof.Machine
end

