-- ==== Sys2Proof/Machine/Commands.lean ====
section
/-!
DEFINITION. The command catalogue (44_commands.md): call-boundary validation (R280) and the meanings of
the seven ENQ_* transactions (R281 to R287).
-/

namespace Sys2Proof.Machine

open Sys2Proof

/-- ENQ of R280: the operand check first, then the id, then ENQUEUE. The checked operand comes in as
`req`; a failure reports one InputError and changes nothing else. -/
def call (tag : Token) (req : Except InputReason Request) (idstr : Option Text) (s : State) : State :=
  match req with
  | .error e => raise (.input tag e) s
  | .ok r =>
    match parseId idstr with
    | .error e => raise (.input tag e) s
    | .ok id => enqueue { req := r, id := id, tag := tag } s

/-- ENQ_QUERY_READING, TXN `0x10` (R281). -/
def execEnqQueryReading (tag : Token) (idstr : Option Text) (s : State) :
    Host.Outcome State Fault Refusal :=
  .next (call tag (.ok .queryReading) idstr s)

/-- ENQ_SET_MODE, TXN `0x11` (R282). -/
def execEnqSetMode (tag : Token) (mtok : Byte) (idstr : Option Text) (s : State) :
    Host.Outcome State Fault Refusal :=
  .next (call tag (modeOperand mtok) idstr s)

/-- ENQ_GET_MODE, TXN `0x12` (R283). -/
def execEnqGetMode (tag : Token) (idstr : Option Text) (s : State) :
    Host.Outcome State Fault Refusal :=
  .next (call tag (.ok .getMode) idstr s)

/-- ENQ_SET_SLEEP, TXN `0x13` (R284). -/
def execEnqSetSleep (tag : Token) (sleep : Bool) (idstr : Option Text) (s : State) :
    Host.Outcome State Fault Refusal :=
  .next (call tag (.ok (.setSleep sleep)) idstr s)

/-- ENQ_GET_FIRMWARE, TXN `0x14` (R285). -/
def execEnqGetFirmware (tag : Token) (idstr : Option Text) (s : State) :
    Host.Outcome State Fault Refusal :=
  .next (call tag (.ok .getFirmware) idstr s)

/-- ENQ_SET_PERIOD, TXN `0x15` (R286). -/
def execEnqSetPeriod (tag : Token) (minutes : Int) (idstr : Option Text) (s : State) :
    Host.Outcome State Fault Refusal :=
  .next (call tag (periodOperand s.cfg minutes) idstr s)

/-- ENQ_GET_PERIOD, TXN `0x16` (R287). -/
def execEnqGetPeriod (tag : Token) (idstr : Option Text) (s : State) :
    Host.Outcome State Fault Refusal :=
  .next (call tag (.ok .getPeriod) idstr s)

end Sys2Proof.Machine
end

