-- ==== Sys2Proof/Machine/Transport.lean ====
section
/-!
DEFINITION. The transport boundary (60_exceptions.md R345): the meaning of TRANSPORT_ERROR (R346).
-/

namespace Sys2Proof.Machine

open Sys2Proof

/-- TRANSPORT_ERROR, TXN `0x04` (R346): the error value passes through, even after CLOSE. -/
def execTransportError (err : Token) (s : State) : Host.Outcome State Fault Refusal :=
  .next (raise (.transport err) s)

end Sys2Proof.Machine
end

