-- ==== Sys2Proof/Machine/Frames.lean ====
section
/-!
DEFINITION. The meanings of the frame rows. An OUT19 row is the block's own step that writes exactly that
frame: EXECUTE runs inside a tick only (43_scheduler.md R241, R249). An IN10 row is the arrival of that
frame: the transport delivers its ten bytes as one chunk (41_framer.md R181).
-/

namespace Sys2Proof.Machine

open Sys2Proof

/-- Whether the block's own next step, the armed timer's tick, writes the given frame. -/
def timerWrites (frame : List Byte) (s : State) : Bool :=
  s.timerArmed && ((fireTimer s).out.drop s.out.length).contains (.write frame)

/-- The block writes one outbound command frame. Between requests it writes in the tick of its armed timer
and nowhere else (43_scheduler.md R249, R254, R258), so the row is that whole step where the step writes
this frame, and nothing happens where it does not: no frame before the first accepted request
(70_reset_and_hazards.md R361), none beyond the retry budget (43_scheduler.md R251), none after CLOSE
(42_device_state.md R223). The bytes are ENCODE's, so the checksum byte is computed (30_encoding.md
R105). DESIGN CHOICE, safe: log 8. -/
def writeFrame (r : Request) (id : Half) (s : State) : State :=
  if timerWrites (encodeCommand s.cfg r (some id)) s then fireTimer s else s

/-- OUT_QUERY_READING (44_commands.md R281). -/
def execOutQueryReading (id : Half) (s : State) : Host.Outcome State Fault Refusal :=
  .next (writeFrame .queryReading id s)

/-- OUT_SET_MODE (R282). -/
def execOutSetMode (mode : Mode) (id : Half) (s : State) : Host.Outcome State Fault Refusal :=
  .next (writeFrame (.setMode mode) id s)

/-- OUT_GET_MODE (R283). -/
def execOutGetMode (id : Half) (s : State) : Host.Outcome State Fault Refusal :=
  .next (writeFrame .getMode id s)

/-- OUT_SET_SLEEP (R284). -/
def execOutSetSleep (sleep : Bool) (id : Half) (s : State) : Host.Outcome State Fault Refusal :=
  .next (writeFrame (.setSleep sleep) id s)

/-- OUT_GET_FIRMWARE (R285). -/
def execOutGetFirmware (id : Half) (s : State) : Host.Outcome State Fault Refusal :=
  .next (writeFrame .getFirmware id s)

/-- OUT_SET_PERIOD (R286). -/
def execOutSetPeriod (minutes : Byte) (id : Half) (s : State) : Host.Outcome State Fault Refusal :=
  .next (writeFrame (.setPeriod minutes) id s)

/-- OUT_GET_PERIOD (R287). -/
def execOutGetPeriod (id : Half) (s : State) : Host.Outcome State Fault Refusal :=
  .next (writeFrame .getPeriod id s)

/-- IN_READING (40_codec.md R159). DESIGN CHOICE, safe: log 7. -/
def execInReading (d0 d1 d2 d3 d4 d5 ck : Byte) (s : State) : Host.Outcome State Fault Refusal :=
  .next (push (inFrame s.cfg s.cfg.sndReading d0 d1 d2 d3 d4 d5 ck) s)

/-- IN_MODE_RESP (42_device_state.md R216). -/
def execInModeResp (d1 d2 d3 d4 d5 ck : Byte) (s : State) : Host.Outcome State Fault Refusal :=
  .next (push (inFrame s.cfg s.cfg.sndConfig s.cfg.cmdMode d1 d2 d3 d4 d5 ck) s)

/-- IN_SLEEP_RESP (R217). -/
def execInSleepResp (d1 d2 d3 d4 d5 ck : Byte) (s : State) : Host.Outcome State Fault Refusal :=
  .next (push (inFrame s.cfg s.cfg.sndConfig s.cfg.cmdPower d1 d2 d3 d4 d5 ck) s)

/-- IN_FIRMWARE_RESP (R218). -/
def execInFirmwareResp (d1 d2 d3 d4 d5 ck : Byte) (s : State) : Host.Outcome State Fault Refusal :=
  .next (push (inFrame s.cfg s.cfg.sndConfig s.cfg.cmdFirmware d1 d2 d3 d4 d5 ck) s)

/-- IN_PERIOD_RESP (R219). -/
def execInPeriodResp (d1 d2 d3 d4 d5 ck : Byte) (s : State) : Host.Outcome State Fault Refusal :=
  .next (push (inFrame s.cfg s.cfg.sndConfig s.cfg.cmdPeriod d1 d2 d3 d4 d5 ck) s)

end Sys2Proof.Machine
end

