-- ==== Sys2Proof/Machine/Dispatch.lean ====
section
/-!
DEFINITION. The dispatch of one instruction to its meaning, one arm per constructor.
-/

namespace Sys2Proof.Machine

open Sys2Proof

def exec (i : Instr) (s : State) : Host.Outcome State Fault Refusal :=
  match i with
  | .push chunk => Sys2Proof.Machine.execPush chunk s
  | .timer => Sys2Proof.Machine.execTimer s
  | .close => Sys2Proof.Machine.execClose s
  | .transportError err => Sys2Proof.Machine.execTransportError err s
  | .enqQueryReading tag idstr => Sys2Proof.Machine.execEnqQueryReading tag idstr s
  | .enqSetMode tag mtok idstr => Sys2Proof.Machine.execEnqSetMode tag mtok idstr s
  | .enqGetMode tag idstr => Sys2Proof.Machine.execEnqGetMode tag idstr s
  | .enqSetSleep tag sleep idstr => Sys2Proof.Machine.execEnqSetSleep tag sleep idstr s
  | .enqGetFirmware tag idstr => Sys2Proof.Machine.execEnqGetFirmware tag idstr s
  | .enqSetPeriod tag minutes idstr => Sys2Proof.Machine.execEnqSetPeriod tag minutes idstr s
  | .enqGetPeriod tag idstr => Sys2Proof.Machine.execEnqGetPeriod tag idstr s
  | .outQueryReading id _ => Sys2Proof.Machine.execOutQueryReading id s
  | .outSetMode mode id _ => Sys2Proof.Machine.execOutSetMode mode id s
  | .outGetMode id _ => Sys2Proof.Machine.execOutGetMode id s
  | .outSetSleep sleep id _ => Sys2Proof.Machine.execOutSetSleep sleep id s
  | .outGetFirmware id _ => Sys2Proof.Machine.execOutGetFirmware id s
  | .outSetPeriod minutes id _ => Sys2Proof.Machine.execOutSetPeriod minutes id s
  | .outGetPeriod id _ => Sys2Proof.Machine.execOutGetPeriod id s
  | .inReading d0 d1 d2 d3 d4 d5 ck => Sys2Proof.Machine.execInReading d0 d1 d2 d3 d4 d5 ck s
  | .inModeResp d1 d2 d3 d4 d5 ck => Sys2Proof.Machine.execInModeResp d1 d2 d3 d4 d5 ck s
  | .inSleepResp d1 d2 d3 d4 d5 ck => Sys2Proof.Machine.execInSleepResp d1 d2 d3 d4 d5 ck s
  | .inFirmwareResp d1 d2 d3 d4 d5 ck => Sys2Proof.Machine.execInFirmwareResp d1 d2 d3 d4 d5 ck s
  | .inPeriodResp d1 d2 d3 d4 d5 ck => Sys2Proof.Machine.execInPeriodResp d1 d2 d3 d4 d5 ck s

end Sys2Proof.Machine
end

