-- ==== Sys2Proof/Machine/Step.lean ====
section
/-!
DEFINITION. One step of the machine: fetch the next transaction and run it to completion (00_scope.md
R19), and how the host places one instruction where the next step fetches.
-/

namespace Sys2Proof.Machine

open Sys2Proof

/-- One step: the next transaction's meaning, a mark where it is refused (70_reset_and_hazards.md R369 (c)),
and no change while nothing is to be done (the block waits). -/
def step (s : State) : Host.Outcome State Fault Refusal :=
  match nextPacket s with
  | none => .next s
  | some (p, t) =>
    match vetPacket t.cfg p with
    | .error r => .next (turnAway p r t)
    | .ok i => orTurnAway p t (exec i t)

/-- `s` with the instruction whose bits are `w` placed at the head of the channel, operand lines zero. -/
def State.withFetchWord (s : State) (nbits w : Nat) : State :=
  placePacket (packetOf s.cfg (bytesOf (nbits / 8) w)) s

end Sys2Proof.Machine
end

