-- ==== Sys2Proof/Safety.lean ====
section
/-!
DEFINITION. What counts as a safe state, and the vocabulary statements use: the invariants of
10_state.md R49, how event traces are read, the bytes of a command frame written out from
30_encoding.md R104, and the renaming of caller tags.
-/

namespace Sys2Proof.Machine

open Sys2Proof

/-- The requested value of a descriptor lies in its range (10_state.md R48). -/
def requestOk (c : Config) : Request → Prop
  | .queryReading => True
  | .setMode _ => True
  | .getMode => True
  | .setSleep _ => True
  | .getFirmware => True
  | .setPeriod p => p.toNat ≤ c.periodMax
  | .getPeriod => True

/-- The invariants between transactions (10_state.md R49 I1 to I6), the range of every queued request
(R48), and the configuration's constraints (70_reset_and_hazards.md R365). -/
structure State.Inv (s : State) : Prop where
  /-- I1. -/
  idle_iff_empty : s.sst = .idle ↔ s.q = []
  /-- I2. -/
  empty_counter : s.q = [] → s.rc = 0
  /-- I3. -/
  processing : s.sst = .processing → 1 ≤ s.rc ∧ s.rc ≤ s.cfg.retryBudget ∧ s.timerArmed = true
  /-- I4. -/
  armed : s.timerArmed = true → s.sst = .processing
  /-- I5. -/
  closed : s.closed = true → s.q = [] ∧ s.timerArmed = false ∧ s.buf = []
  /-- I6. -/
  buffer : s.buf.length ≤ s.cfg.inLen - 1
  /-- R48. -/
  requests : ∀ d ∈ s.q, requestOk s.cfg d.req
  /-- R365 (1). -/
  config : s.cfg.Ok

/-- The scheduler is idle with an empty queue on an open connection, so the next accepted command gets
its first tick at once (43_scheduler.md R255). -/
structure IdleOpen (s : State) : Prop where
  isOpen : s.closed = false
  idle : s.sst = .idle
  empty : s.q = []
  counter : s.rc = 0
  budget : 1 ≤ s.cfg.retryBudget

/-- The events a state's trace has beyond another's. -/
def newEvents (s t : State) : List Event := t.out.drop s.out.length

/-- A write to the transport. -/
def isWrite : Event → Bool
  | .write _ => true
  | _ => false

/-- The raw-data passthrough. -/
def isData : Event → Bool
  | .data _ => true
  | _ => false

/-- An event the decode path emits for a candidate frame (42_device_state.md R211). -/
def isDecodeEvent : Event → Bool
  | .message _ => true
  | .messageError _ _ => true
  | .reading _ _ => true
  | _ => false

/-- An error event that can still appear after CLOSE: a settlement only with ConnectionClosed
(60_exceptions.md R321, R346; 43_scheduler.md R255). -/
def isAfterClose : Event → Bool
  | .transportError _ => true
  | .settle _ (.failure .connectionClosed) => true
  | .inputError _ _ => true
  | .notice _ => true
  | _ => false

/-- The tags settled by a run of events, in order. -/
def settledTags : List Event → List Token
  | [] => []
  | .settle tag _ :: es => tag :: settledTags es
  | _ :: es => settledTags es

/-- Delivering chunks one after the other (41_framer.md R195). -/
def pushAll (chunks : List (List Byte)) (s : State) : State :=
  chunks.foldl (fun s chunk => push chunk s) s

/-- The 19 bytes of an outbound command with the given type, mode and argument, written out from the
layout of 30_encoding.md R104. -/
def commandFrame (c : Config) (ty m a : Byte) (id : Half) : List Byte :=
  [c.head, c.hostSender, ty, m, a, 0, 0, 0, 0, 0, 0, 0, 0, 0, 0, hi8 id, lo8 id,
    u8 (ty.toNat + m.toNat + a.toNat + (hi8 id).toNat + (lo8 id).toNat), c.tail]

/-- The transaction that asks for a request (30_encoding.md R120, R126). -/
def enqOf (r : Request) (tag : Token) (idstr : Option Text) : Instr :=
  match r with
  | .queryReading => .enqQueryReading tag idstr
  | .setMode .active => .enqSetMode tag 0 idstr
  | .setMode .query => .enqSetMode tag 1 idstr
  | .getMode => .enqGetMode tag idstr
  | .setSleep b => .enqSetSleep tag b idstr
  | .getFirmware => .enqGetFirmware tag idstr
  | .setPeriod p => .enqSetPeriod tag p.toNat idstr
  | .getPeriod => .enqGetPeriod tag idstr

/-- The outbound frame row of a request (the table after 30_encoding.md R109). -/
def outOf (r : Request) (id : Half) (ck : Byte) : Instr :=
  match r with
  | .queryReading => .outQueryReading id ck
  | .setMode m => .outSetMode m id ck
  | .getMode => .outGetMode id ck
  | .setSleep b => .outSetSleep b id ck
  | .getFirmware => .outGetFirmware id ck
  | .setPeriod p => .outSetPeriod p id ck
  | .getPeriod => .outGetPeriod id ck

/-- The instructions that run the decode path: PUSH and the five inbound frames (10_state.md R41 (a)). -/
def isInbound : Instr → Bool
  | .push _ => true
  | .inReading _ _ _ _ _ _ _ => true
  | .inModeResp _ _ _ _ _ _ => true
  | .inSleepResp _ _ _ _ _ _ => true
  | .inFirmwareResp _ _ _ _ _ _ => true
  | .inPeriodResp _ _ _ _ _ _ => true
  | _ => false

/-- The chunk an instruction of the decode path delivers: PUSH's own, or an inbound frame's ten bytes. -/
def arrivingChunk (c : Config) : Instr → List Byte
  | .push chunk => chunk
  | i => encodeCode c i

/-- The seven requests, the ENQ_* transactions (44_commands.md R281 to R287). -/
def isRequest : Instr → Bool
  | .enqQueryReading _ _ => true
  | .enqSetMode _ _ _ => true
  | .enqGetMode _ _ => true
  | .enqSetSleep _ _ _ => true
  | .enqGetFirmware _ _ => true
  | .enqSetPeriod _ _ _ => true
  | .enqGetPeriod _ _ => true
  | _ => false

/-- A field after a step that may only set it to PENDING (10_state.md R41 (b)). -/
def keptOrPending {α : Type} (before after : Pend α) : Prop := after = before ∨ after = .pending

/-- The state after the queue in front of `rest` has been popped: idle when nothing is left, else the
next head prepared, counted once and written (43_scheduler.md R245, R252, R253). -/
def handOver (rest : List Desc) (s : State) : State :=
  match rest with
  | [] => { s with q := [], rc := 0, sst := .idle, timerArmed := false }
  | d :: _ =>
    let p := prepare (requestOp d.req) s
    { p with q := rest, rc := 1, timerArmed := true, out := s.out ++ [.write (descFrame s.cfg d)] }

/-- Renaming the caller tag of an event. -/
def Event.mapTag (f : Token → Token) : Event → Event
  | .settle tag r => .settle (f tag) r
  | .inputError tag r => .inputError (f tag) r
  | e => e

/-- Renaming the caller tag of a descriptor. -/
def Desc.mapTag (f : Token → Token) (d : Desc) : Desc := { d with tag := f d.tag }

/-- Renaming every caller tag the state holds: in the queue and in the trace. -/
def State.mapTag (f : Token → Token) (s : State) : State :=
  { s with q := s.q.map (Desc.mapTag f), out := s.out.map (Event.mapTag f) }

/-- Renaming the caller tag of an instruction. -/
def instrMapTag (f : Token → Token) : Instr → Instr
  | .enqQueryReading tag idstr => .enqQueryReading (f tag) idstr
  | .enqSetMode tag mtok idstr => .enqSetMode (f tag) mtok idstr
  | .enqGetMode tag idstr => .enqGetMode (f tag) idstr
  | .enqSetSleep tag sleep idstr => .enqSetSleep (f tag) sleep idstr
  | .enqGetFirmware tag idstr => .enqGetFirmware (f tag) idstr
  | .enqSetPeriod tag minutes idstr => .enqSetPeriod (f tag) minutes idstr
  | .enqGetPeriod tag idstr => .enqGetPeriod (f tag) idstr
  | i => i

/-- Renaming the caller tags of the state an outcome holds. -/
def outcomeMapTag (f : Token → Token) :
    Host.Outcome State Fault Refusal → Host.Outcome State Fault Refusal
  | .next s => .next (s.mapTag f)
  | .fault r => .fault r
  | .refused r => .refused r

end Sys2Proof.Machine
end

