-- ==== Sys2Proof/Certificates/Slice0/Obligations.lean ====
section
/-!
DEFINITION. The statements for the provers. Each docstring names the rules of spec/ it rests on, and the
decisions of 92_eei_decisions.md or the log entries behind a clause that the source leaves open.
-/

open Sys2Proof Sys2Proof.Machine

/-! ### Encoding and fetching -/

/-- Every instruction decodes from its own encoding, under every configuration whose codes are distinct
(30_encoding.md sections 1, 2, 5). The operand lines are log 4's, the transaction codes decision D29's. -/
def Obligations.DecodeOfEncode : Prop :=
  ∀ (c : Config) (i : Instr), c.Ok → c.CodesDistinct →
    decode c (encode c i).code (encode c i).ops = .ok i

/-- A code the decoder accepts is, byte for byte, the encoding of the instruction it reads: no code of a
row falls through to a neighbour (30_encoding.md sections 1, 2, 5; decision D29). -/
def Obligations.AcceptedCodeIsTheEncoding : Prop :=
  ∀ (c : Config) (code : List Byte) (o : Operands) (i : Instr),
    decode c code o = .ok i → encodeCode c i = code

/-- Words written out from the spec decode to the instructions they stand for: transaction codes of
30_encoding.md R120, frames of 95_test_vectors.md CO-R1, CO-M1, CO-S1, CO-F1, CO-P1, EN-1, EN-10. The
transaction codes are decision D29's (log 26), the operand lines beside them log 4's, and the command
type bytes 02, 04, 06, 07, 08 the presumed defaults of decision D3 (log 10). -/
def Obligations.SpecWordsDecode : Prop :=
  decode Config.default [0x01] { chunk := [0xAA] } = .ok (.push [0xAA]) ∧
  decode Config.default [0x02] {} = .ok .timer ∧
  decode Config.default [0x15] { tag := 7, minutes := -1 } = .ok (.enqSetPeriod 7 (-1) none) ∧
  decode Config.default [0xAA, 0xC0, 0x4B, 0x00, 0x51, 0x00, 0xE9, 0x77, 0xFC, 0xAB] {} =
    .ok (.inReading 0x4B 0x00 0x51 0x00 0xE9 0x77 0xFC) ∧
  decode Config.default [0xAA, 0xC5, 0x02, 0x01, 0x01, 0x00, 0xA1, 0x60, 0x05, 0xAB] {} =
    .ok (.inModeResp 0x01 0x01 0x00 0xA1 0x60 0x05) ∧
  decode Config.default [0xAA, 0xC5, 0x06, 0x01, 0x00, 0x00, 0xA1, 0x60, 0x08, 0xAB] {} =
    .ok (.inSleepResp 0x01 0x00 0x00 0xA1 0x60 0x08) ∧
  decode Config.default [0xAA, 0xC5, 0x07, 0x0F, 0x07, 0x0A, 0xA1, 0x60, 0x28, 0xAB] {} =
    .ok (.inFirmwareResp 0x0F 0x07 0x0A 0xA1 0x60 0x28) ∧
  decode Config.default [0xAA, 0xC5, 0x08, 0x01, 0x03, 0x00, 0xA1, 0x60, 0x0D, 0xAB] {} =
    .ok (.inPeriodResp 0x01 0x03 0x00 0xA1 0x60 0x0D) ∧
  decode Config.default [0xAA, 0xB4, 0x04, 0, 0, 0, 0, 0, 0, 0, 0, 0, 0, 0, 0, 0xFF, 0xFF, 0x02, 0xAB] {} =
    .ok (.outQueryReading 0xFFFF 0x02) ∧
  decode Config.default [0xAA, 0xB4, 0x08, 1, 0x1E, 0, 0, 0, 0, 0, 0, 0, 0, 0, 0, 0xCA, 0xFE, 0xEF, 0xAB] {} =
    .ok (.outSetPeriod 0x1E 0xCAFE 0xEF)

/-- A step runs the decoded instruction: where the first packet on the channel decodes to `i` and its
issuer may issue it, the step is `i`'s meaning on the state without that packet (log 1, log 6). Where that
meaning is refused, the transaction is marked and passed over (70_reset_and_hazards.md section 3, R369
(c); log 28). -/
def Obligations.StepRunsTheDecodedInstruction : Prop :=
  ∀ (s : State) (p : Packet) (rest : List Packet) (i : Instr),
    s.chan = p :: rest → decode s.cfg p.code p.ops = .ok i → p.issuer = i.issuer →
      (∀ t, exec i { s with chan := rest } = .next t → step s = .next t) ∧
      (∀ r, exec i { s with chan := rest } = .refused r → step s = .next { s with
        chan := rest, refusals := s.refusals ++ [{ packet := p, reason := r }] })

/-- With nothing on the channel the block's own timer fires if it is armed, and otherwise the block waits
unchanged (43_scheduler.md section 4; log 3). -/
def Obligations.EmptyChannelFiresTheTimerOrWaits : Prop :=
  ∀ s : State, s.chan = [] →
    (s.timerArmed = true → step s = exec .timer s) ∧ (s.timerArmed = false → step s = .next s)

/-- A packet whose code decodes to no row, a one-byte code outside the table of transactions above all, is
refused: the transaction is marked, the packet is passed over, and the block itself takes no step
(30_encoding.md section 5, R122's first clause; 70_reset_and_hazards.md section 3, R369 (c); decision
D29; log 5, log 28). -/
def Obligations.UnknownTransactionCodesAreRefused : Prop :=
  ∀ (s : State) (p : Packet) (rest : List Packet), s.chan = p :: rest →
    let marked (e : DecodeError) : State := { s with
      chan := rest, refusals := s.refusals ++ [{ packet := p, reason := .undecodable e }] }
    (∀ tc : Byte, p.code = [tc] →
      tc ∉ ([0x01, 0x02, 0x03, 0x04, 0x10, 0x11, 0x12, 0x13, 0x14, 0x15, 0x16] : List Byte) →
        step s = .next (marked (.unknownCode tc))) ∧
    (∀ e, decode s.cfg p.code p.ops = .error e → step s = .next (marked e))

/-- Only the role R340 names gets a transaction in: from every other issuer it is refused, marked and passed
over, so the host has no move that issues TIMER, armed or not (60_exceptions.md section 4;
30_encoding.md section 5; 70_reset_and_hazards.md section 3, R369 (c); log 6, log 28). -/
def Obligations.OnlyTheProperIssuerIsServed : Prop :=
  ∀ (s : State) (p : Packet) (rest : List Packet) (i : Instr),
    s.chan = p :: rest → decode s.cfg p.code p.ops = .ok i → p.issuer ≠ i.issuer →
      step s = .next { s with
        chan := rest, refusals := s.refusals ++ [{ packet := p, reason := .wrongIssuer }] }

/-! ### Reset -/

/-- The reset values of 10_state.md section 9 (R54), which the spec marks as its own choice, decision D5, and
what the register view of section 6 (R51, decision D42, log 26) reads then: 0 in all ten registers. -/
def Obligations.ResetValues : Prop :=
  State.reset.buf = [] ∧ State.reset.pm25 = .pending ∧ State.reset.pm10 = .pending ∧
  State.reset.mode = .pending ∧ State.reset.sleeping = .pending ∧ State.reset.fw = .pending ∧
  State.reset.period = .pending ∧ State.reset.closed = false ∧ State.reset.q = [] ∧
  State.reset.rc = 0 ∧ State.reset.sst = .idle ∧ State.reset.timerArmed = false ∧
  State.reset.out = [] ∧ ∀ n < 10, readReg State.reset n = some 0

/-- The reset state meets the invariants (10_state.md section 4, R49, which the spec derives). Its
configuration clause is 70_reset_and_hazards.md section 2 (R365) at the default parameters, which the
model's reset state holds (log 18). -/
def Obligations.ResetMeetsTheInvariant : Prop := State.reset.Inv

/-! ### Rules about every step -/

/-- Every step keeps the invariants (10_state.md section 4, R49, which the spec derives; R48's range of a
queued request; R365's constraints). -/
def Obligations.StepKeepsTheInvariant : Prop :=
  ∀ s t : State, s.Inv → step s = .next t → t.Inv

/-- The output trace is append-only, no step removes or changes an event, and no step writes a configuration
parameter (10_state.md sections 1 and 7, R32, R52). The marks of refused transactions are append-only
too, which is the model's choice (log 28). -/
def Obligations.TraceOnlyGrowsAndParametersStay : Prop :=
  ∀ s t : State, step s = .next t → s.out <+: t.out ∧ t.cfg = s.cfg ∧ s.refusals <+: t.refusals

/-- After CLOSE nothing but the trace, the channel and the marks of refused transactions (log 28) changes,
and only error events appear: a transport error, a settlement with ConnectionClosed, an input error
(decision D16, log 22), a notice (42_device_state.md section 3; 43_scheduler.md section 4; decisions D17,
D20, D46, log 23; an outbound frame row writes nothing there, log 8). -/
def Obligations.ClosedForGood : Prop :=
  ∀ s t : State, s.Inv → s.closed = true → step s = .next t →
    t = { s with chan := t.chan, out := t.out, refusals := t.refusals } ∧
    ∀ e ∈ newEvents s t, isAfterClose e = true

/-- Writer discipline, scheduler side: outside the decode path a sensor-observed field is kept or becomes
PENDING, never anything else (10_state.md section 3, R41; log 7 for the frame rows). -/
def Obligations.OnlyDecodingWritesValues : Prop :=
  ∀ (i : Instr) (s t : State), isInbound i = false → exec i s = .next t →
    keptOrPending s.pm25 t.pm25 ∧ keptOrPending s.pm10 t.pm10 ∧ keptOrPending s.mode t.mode ∧
    keptOrPending s.sleeping t.sleeping ∧ keptOrPending s.fw t.fw ∧ keptOrPending s.period t.period

/-- Writer discipline, decode side, and the frame of PUSH and the five inbound frames: they complete in
every state, leave the scheduler, `closed`, the channel, the parameters and the refusal marks alone, and
once closed do nothing; while open they add the raw-data event of the delivered chunk (PUSH's own, or the
inbound frame's ten bytes) and then only decode events (42_device_state.md section 3; decisions D10, D20;
log 7, log 28). -/
def Obligations.DecodePathLeavesTheScheduler : Prop :=
  ∀ (i : Instr) (s : State), isInbound i = true →
    ∃ t, exec i s = .next t ∧
      t.closed = s.closed ∧ t.q = s.q ∧ t.rc = s.rc ∧ t.sst = s.sst ∧ t.timerArmed = s.timerArmed ∧
      t.chan = s.chan ∧ t.cfg = s.cfg ∧ t.refusals = s.refusals ∧
      (s.closed = true → t = s) ∧
      (s.closed = false → ∃ es, t.out = s.out ++ [.data (arrivingChunk s.cfg i)] ++ es ∧
        ∀ e ∈ es, isDecodeEvent e = true)

/-- What an instruction leaves alone wherever it completes: the channel, the parameters and the refusal marks
always, the buffer outside the decode path and CLOSE, `closed` outside CLOSE, everything but the trace
for TRANSPORT_ERROR, and everything at all for an outbound frame that is not the timer's own step
(10_state.md sections 1 to 4; log 7, log 8, log 28). -/
def Obligations.WhatInstructionsLeaveAlone : Prop :=
  ∀ (i : Instr) (s t : State), exec i s = .next t →
    t.chan = s.chan ∧ t.cfg = s.cfg ∧ t.refusals = s.refusals ∧
    (i ≠ .close → t.closed = s.closed) ∧
    (i ≠ .close → isInbound i = false → t.buf = s.buf) ∧
    (∀ err, i = .transportError err → t = { s with out := t.out }) ∧
    (∀ r id ck, i = outOf r id ck → t = s ∨ exec .timer s = .next t) ∧
    (i = .close → t = { s with
      closed := t.closed, q := t.q, rc := t.rc, sst := t.sst, timerArmed := t.timerArmed,
      buf := t.buf, out := t.out })

/-- No transaction is ever disabled except TIMER while not armed (70_reset_and_hazards.md section 3,
R369 (b), which the spec derives; the frame rows are log 7 and log 8). Nothing on the channel ends a run:
every step completes and takes the next packet off it, refused ones too (R369 (c); log 28). -/
def Obligations.OnlyTheDisarmedTimerIsDisabled : Prop :=
  (∀ (i : Instr) (s : State),
    (∃ t, exec i s = .next t) ∨
    (i = .timer ∧ s.timerArmed = false ∧ exec i s = .refused .timerDisarmed)) ∧
  (∀ s : State, ∃ t, step s = .next t ∧ t.chan = s.chan.tail)

/-! ### Frame codec -/

/-- CHECKSUM is the sum of the bytes at indices `a` to `b` modulo 256 where `b` lies inside the sequence,
and has no value otherwise (40_codec.md section 1, R140; the second clause is decision D30). -/
def Obligations.ChecksumIsTheSumModulo256 : Prop :=
  ∀ (B : List Byte) (a b : Nat),
    (b < B.length → ∃ k, checksum B a b = some k ∧
      k.toNat = (∑ i ∈ Finset.Icc a b, (byteAt B i).toNat) % 256) ∧
    (B.length ≤ b → checksum B a b = none)

/-- Bytes outside the range do not matter, the bytes inside it may be permuted, and a change of exactly one
byte inside it changes the checksum (40_codec.md section 1, R141 (a), (b) and (c), which the spec
derives). -/
def Obligations.ChecksumDependsOnItsRangeOnly : Prop :=
  (∀ (B C : List Byte) (a b : Nat), B.length = C.length → b < B.length →
    ((∀ i, a ≤ i → i ≤ b → byteAt B i = byteAt C i) → checksum B a b = checksum C a b) ∧
    (∀ k, a ≤ k → k ≤ b → byteAt B k ≠ byteAt C k →
      (∀ i, a ≤ i → i ≤ b → i ≠ k → byteAt B i = byteAt C i) → checksum B a b ≠ checksum C a b)) ∧
  (∀ (pre mid mid' post : List Byte), mid.Perm mid' → 0 < mid.length →
    checksum (pre ++ mid ++ post) pre.length (pre.length + mid.length - 1) =
      checksum (pre ++ mid' ++ post) pre.length (pre.length + mid.length - 1))

/-- A valid inbound frame is exactly ten bytes with the head, the tail and the checksum in their places
(30_encoding.md R100). -/
def Obligations.ValidInboundFramesExactly : Prop :=
  ∀ F : List Byte, validate Config.default F = true ↔
    ∃ sender d0 d1 d2 d3 d4 d5 ck : Byte,
      F = [0xAA, sender, d0, d1, d2, d3, d4, d5, ck, 0xAB] ∧
      ck.toNat = (d0.toNat + d1.toNat + d2.toNat + d3.toNat + d4.toNat + d5.toNat) % 256

/-- DECODE_READING: the two PM values of a reading frame are little-endian 16-bit values of bytes 2, 3 and
4, 5, no other byte is read, and each stands for a tenth of itself in micrograms per cubic metre
(40_codec.md R159). -/
def Obligations.ReadingsDecodeLittleEndian : Prop :=
  ∀ F : List Byte, validate Config.default F = true → byteAt F 1 = 0xC0 →
    ∃ a b : Half, decodeFrame Config.default F = .ok (.reading a b) ∧
      a.toNat = (byteAt F 3).toNat * 256 + (byteAt F 2).toNat ∧
      b.toNat = (byteAt F 5).toNat * 256 + (byteAt F 4).toNat ∧
      concentration a = (a.toNat : Rat) / 10 ∧ concentration b = (b.toNat : Rat) / 10

/-- DECODE_FRAME dispatches on the sender: a reading for 0xC0, DECODE_CONFIG for 0xC5, a failure for any
other sender (40_codec.md R161). -/
def Obligations.DecodingDispatchesOnTheSender : Prop :=
  ∀ F : List Byte, validate Config.default F = true →
    (byteAt F 1 = 0xC0 → decodeFrame Config.default F = .ok (decodeReading F)) ∧
    (byteAt F 1 = 0xC5 → decodeFrame Config.default F = decodeConfig Config.default F) ∧
    (byteAt F 1 ≠ 0xC0 → byteAt F 1 ≠ 0xC5 → decodeFrame Config.default F = .error .unknownSender)

/-- ENCODE_READING_FRAME always validates and DECODE_READING recovers both raw counts exactly (40_codec.md
section 6, R165; the helper is decision D31's). -/
def Obligations.ReadingFramesRoundTrip : Prop :=
  ∀ raw25 raw10 : Half,
    validate Config.default (encodeReadingFrame Config.default raw25 raw10) = true ∧
    decodeFrame Config.default (encodeReadingFrame Config.default raw25 raw10) =
      .ok (.reading raw25 raw10)

/-- The layout of an outbound command frame, byte by byte, with its mode byte 0 for a get operation and 1
for a set operation (30_encoding.md R104, R107). -/
def Obligations.OutboundFrameLayout : Prop :=
  ∀ (r : Request) (id : Option Half),
    let F := encodeCommand Config.default r id
    let set := match r with
      | .setMode _ | .setSleep _ | .setPeriod _ => true
      | .queryReading | .getMode | .getFirmware | .getPeriod => false
    F.length = 19 ∧ byteAt F 0 = 0xAA ∧ byteAt F 1 = 0xB4 ∧
    byteAt F 2 = (match r with
      | .queryReading => Config.default.cmdQuery
      | .setMode _ | .getMode => Config.default.cmdMode
      | .setSleep _ => Config.default.cmdPower
      | .getFirmware => Config.default.cmdFirmware
      | .setPeriod _ | .getPeriod => Config.default.cmdPeriod) ∧
    byteAt F 3 = (if set then 1 else 0) ∧
    byteAt F 4 = (typeModeArg Config.default r).2.2 ∧
    (∀ i, 5 ≤ i → i ≤ 14 → byteAt F i = 0) ∧
    (byteAt F 15).toNat * 256 + (byteAt F 16).toNat = (id.getD 0xFFFF).toNat ∧
    (byteAt F 17).toNat = (∑ i ∈ Finset.Icc 2 16, (byteAt F i).toNat) % 256 ∧
    byteAt F 18 = 0xAB

/-- Two descriptors that write the same frame ask for the same request of the same target, an explicit
`FFFF` being the broadcast target (30_encoding.md section 2; the ARG bytes are decisions D4 and D34). -/
def Obligations.FramesTellCommandsApart : Prop :=
  ∀ (c : Config) (r r' : Request) (id id' : Option Half), c.Ok → c.CodesDistinct →
    encodeCommand c r id = encodeCommand c r' id' → r = r' ∧ targetId c id = targetId c id'

/-- PARSE_ID accepts exactly the strings of four hexadecimal digits, each in either case, and reads them high
digit first (40_codec.md section 3, R153; the grammar is decision D15). -/
def Obligations.SensorIdGrammar : Prop :=
  (∀ (v : Half) (text : Text),
    let digits := [v.toNat / 4096, v.toNat / 256 % 16, v.toNat / 16 % 16, v.toNat % 16].map Nat.digitChar
    List.Forall₂ (fun ch d => ch = d ∨ ch = d.toUpper) text digits →
      parseId (some text) = .ok (some v)) ∧
  (∀ text : Text, parseId (some text) = .error .malformedId ↔
    ¬(text.length = 4 ∧ ∀ ch ∈ text,
      ('0'.toNat ≤ ch.toNat ∧ ch.toNat ≤ '9'.toNat) ∨ ('a'.toNat ≤ ch.toNat ∧ ch.toNat ≤ 'f'.toNat) ∨
      ('A'.toNat ≤ ch.toNat ∧ ch.toNat ≤ 'F'.toNat))) ∧
  parseId none = .ok none

/-- RENDER_FW is year, month and day in that order with a '-' between them, and each part, `pad2` of its byte,
is the byte's decimal numeral with at least two digits (40_codec.md section 5, R163; three digits from
100 on is decision D13, log 22). -/
def Obligations.FirmwarePartsRenderInDecimal : Prop :=
  (∀ f : Firmware,
    renderFw f = List.intercalate ['-'] [pad2 f.year, pad2 f.month, pad2 f.day]) ∧
  ∀ b : Byte,
    Nat.ofDigits 10 ((pad2 b).reverse.map (fun ch => ch.toNat - '0'.toNat)) = b.toNat ∧
    (∀ ch ∈ pad2 b, '0'.toNat ≤ ch.toNat ∧ ch.toNat ≤ '9'.toNat) ∧
    (pad2 b).length = if b.toNat < 100 then 2 else 3

/-! ### Byte stream framer -/

/-- EXTRACT is the loop of 41_framer.md section 2: while a frame's length is buffered, one iteration, and
on if the iteration says so (decisions D8, D9; log 20 on the bound of the iterations). -/
def Obligations.ExtractionIsTheLoop : Prop :=
  ∀ s : State, s.cfg.Ok →
    extract s =
      if s.buf.length < s.cfg.inLen then s
      else if (scan s).2 = true then extract (scan s).1 else (scan s).1

/-- The five cases of an iteration, told apart by where the markers lie: no head clears the buffer and
stops; garbage before the first head is dropped; no tail from index IN_LEN - 1 on drops NOTAIL_DISCARD;
a first tail beyond that index drops CORRUPT_DISCARD; a tail at it cuts off the candidate. The four
discards emit nothing (41_framer.md section 2, R184 to R189; decisions D7, D8, D10). -/
def Obligations.IterationCases : Prop :=
  ∀ s : State, s.cfg.Ok → s.cfg.inLen ≤ s.buf.length →
    (s.cfg.head ∉ s.buf → scan s = ({ s with buf := [] }, false)) ∧
    (∀ g rest, s.buf = g ++ s.cfg.head :: rest → g ≠ [] → s.cfg.head ∉ g →
      scan s = ({ s with buf := s.cfg.head :: rest }, true)) ∧
    (byteAt s.buf 0 = s.cfg.head →
      (s.cfg.tail ∉ s.buf.drop (s.cfg.inLen - 1) →
        scan s = ({ s with buf := s.buf.drop s.cfg.notailDiscard }, true)) ∧
      (s.cfg.tail ∈ s.buf.drop s.cfg.inLen → byteAt s.buf (s.cfg.inLen - 1) ≠ s.cfg.tail →
        scan s = ({ s with buf := s.buf.drop s.cfg.corruptDiscard }, true)) ∧
      (byteAt s.buf (s.cfg.inLen - 1) = s.cfg.tail →
        scan s = (dispose (s.buf.take s.cfg.inLen) { s with buf := s.buf.drop s.cfg.inLen }, true)))

/-- An invalid candidate is reported with its bytes, the loop goes on behind it, and no other element
changes (41_framer.md R190). -/
def Obligations.InvalidCandidatesAreReported : Prop :=
  ∀ s : State, s.cfg.Ok → s.cfg.inLen ≤ s.buf.length →
    byteAt s.buf 0 = s.cfg.head → byteAt s.buf (s.cfg.inLen - 1) = s.cfg.tail →
    validate s.cfg (s.buf.take s.cfg.inLen) = false →
      scan s = ({ s with
        buf := s.buf.drop s.cfg.inLen,
        out := s.out ++ [.messageError (s.buf.take s.cfg.inLen) .invalidFrame] }, true)

/-- PUSH on an open block completes and leaves fewer bytes than a frame buffered, whatever the buffer held
before (41_framer.md section 3, R193, which the spec derives). -/
def Obligations.PushLeavesLessThanAFrame : Prop :=
  ∀ (chunk : List Byte) (s : State), s.cfg.Ok → s.closed = false →
    ∃ t, exec (.push chunk) s = .next t ∧ t.buf.length ≤ s.cfg.inLen - 1

/-- PUSH of a chunk that leaves fewer bytes than a frame only appends it and passes it through; the empty
chunk is such a chunk (41_framer.md section 1; decisions D10, D43). -/
def Obligations.PushOfAPartialFrameOnlyBuffers : Prop :=
  ∀ (chunk : List Byte) (s : State), s.closed = false → (s.buf ++ chunk).length < s.cfg.inLen →
    exec (.push chunk) s = .next { s with buf := s.buf ++ chunk, out := s.out ++ [.data chunk] }

/-- PUSH of one valid frame on an empty buffer: a decoded message is applied, passed through and perhaps
announced; a frame that does not decode is reported and changes nothing else (42_device_state.md
section 1; decisions D10, D11). -/
def Obligations.PushOfOneValidFrame : Prop :=
  ∀ (F : List Byte) (s : State), s.cfg.Ok → s.cfg.inLen = 10 → s.closed = false → s.buf = [] →
    validate s.cfg F = true →
    (∀ m, decodeFrame s.cfg F = .ok m →
      exec (.push F) s = .next { apply m s with
        out := s.out ++ [.data F, .message m] ++
          (match m with
            | .reading a b => if 0 < a.toNat ∧ 0 < b.toNat then [.reading a b] else []
            | _ => []) }) ∧
    (∀ r, decodeFrame s.cfg F = .error r →
      exec (.push F) s = .next { s with out := s.out ++ [.data F, .messageError F r] })

/-- Every InvalidFrame that a PUSH reports is a checksum mismatch of a ten-byte candidate with its head and
tail in place (41_framer.md section 3, R196, which the spec derives). -/
def Obligations.InvalidFrameMeansChecksumMismatch : Prop :=
  ∀ (chunk cand : List Byte) (s t : State), s.cfg.Ok → s.cfg.inLen = 10 →
    exec (.push chunk) s = .next t → .messageError cand .invalidFrame ∈ newEvents s t →
      cand.length = 10 ∧ byteAt cand 0 = s.cfg.head ∧ byteAt cand 9 = s.cfg.tail ∧
      checksum cand 2 7 ≠ some (byteAt cand 8)

/-- Resynchronization: garbage without a head marker followed by one valid frame, split into chunks
anywhere, is handled as exactly that frame: the buffer ends empty, every other element but the trace is
as after HANDLE_VALID, and beyond the raw-data events the trace gains exactly HANDLE_VALID's events
(41_framer.md section 3, R195, which the spec derives; 90_conflicts.md C7). -/
def Obligations.ResynchronizesUnderEverySplit : Prop :=
  ∀ (chunks : List (List Byte)) (G F : List Byte) (s : State),
    s.cfg.Ok → s.cfg.inLen = 10 → s.closed = false → s.buf = [] →
    chunks.flatten = G ++ F → s.cfg.head ∉ G → validate s.cfg F = true →
      pushAll chunks s = { handleValid F s with out := (pushAll chunks s).out } ∧
      (pushAll chunks s).out.filter (fun e => !isData e) =
        (handleValid F s).out.filter (fun e => !isData e)

/-- A chunk delivered twice is decoded twice: the second delivery of a valid frame leaves every element but
the trace as it was and emits the frame's events again (20_memory.md section 6, R81;
70_reset_and_hazards.md R375; both derived by the spec; decision D10 on the order of the events). -/
def Obligations.DuplicatesAreDecodedAgain : Prop :=
  ∀ (F : List Byte) (s t : State), s.cfg.Ok → s.cfg.inLen = 10 → s.closed = false → s.buf = [] →
    validate s.cfg F = true → exec (.push F) s = .next t →
      exec (.push F) t = .next { t with out := t.out ++ newEvents s t }

/-! ### Device State -/

/-- A mode or a sleep response writes its own field with the value its bytes stand for, in the state
HANDLE_VALID leaves (42_device_state.md R216, R217). -/
def Obligations.ModeAndSleepResponsesWriteTheirField : Prop :=
  ∀ (F : List Byte) (s : State), s.cfg = Config.default → validate s.cfg F = true → byteAt F 1 = 0xC5 →
    (byteAt F 2 = s.cfg.cmdMode →
      (handleValid F s).mode = .val (if byteAt F 4 = 0 then .active else .query)) ∧
    (byteAt F 2 = s.cfg.cmdPower → (handleValid F s).sleeping = .val (decide (byteAt F 4 = 0)))

/-- A valid frame that cannot be decoded, because its sender or its echoed command type is unknown, is
reported with its bytes and changes nothing else (60_exceptions.md R323). -/
def Obligations.UndecodableFramesAreReported : Prop :=
  ∀ (F : List Byte) (s : State), s.cfg = Config.default → validate s.cfg F = true →
    (byteAt F 1 ≠ 0xC0 → byteAt F 1 ≠ 0xC5 →
      handleValid F s = { s with out := s.out ++ [.messageError F .unknownSender] }) ∧
    (byteAt F 1 = 0xC5 →
      byteAt F 2 ∉ [s.cfg.cmdMode, s.cfg.cmdPower, s.cfg.cmdFirmware, s.cfg.cmdPeriod] →
      handleValid F s = { s with out := s.out ++ [.messageError F .unknownCommand] })

/-- IN_READING on an open block with an empty buffer: with the right checksum both PM fields take the new
counts and a Reading event follows only if both are above zero; with a wrong one the frame is reported
(42_device_state.md section 1, R212, R213; decision D10; log 7). -/
def Obligations.InboundReading : Prop :=
  ∀ (d0 d1 d2 d3 d4 d5 ck : Byte) (s : State), s.cfg.Ok → s.cfg.inLen = 10 → s.closed = false →
    s.buf = [] →
    let F := [s.cfg.head, s.cfg.sndReading, d0, d1, d2, d3, d4, d5, ck, s.cfg.tail]
    let right := ck.toNat = (d0.toNat + d1.toNat + d2.toNat + d3.toNat + d4.toNat + d5.toNat) % 256
    (right → exec (.inReading d0 d1 d2 d3 d4 d5 ck) s = .next { s with
      pm25 := .val (half d1 d0), pm10 := .val (half d3 d2),
      out := s.out ++ [.data F, .message (.reading (half d1 d0) (half d3 d2))] ++
        (if 0 < (half d1 d0).toNat ∧ 0 < (half d3 d2).toNat then
          [.reading (half d1 d0) (half d3 d2)] else []) }) ∧
    (¬right → exec (.inReading d0 d1 d2 d3 d4 d5 ck) s =
      .next { s with out := s.out ++ [.data F, .messageError F .invalidFrame] })

/-- The four configuration responses on an open block with an empty buffer: with the right checksum each
writes exactly its own field and passes the message through; with a wrong one the frame is reported
(42_device_state.md section 1, R215 to R219; decisions D10, D13, D14; log 7). -/
def Obligations.InboundConfigurationResponses : Prop :=
  ∀ (d1 d2 d3 d4 d5 ck : Byte) (s : State), s.cfg.Ok → s.cfg.CodesDistinct → s.cfg.inLen = 10 →
    s.closed = false → s.buf = [] →
    let F (ty : Byte) := [s.cfg.head, s.cfg.sndConfig, ty, d1, d2, d3, d4, d5, ck, s.cfg.tail]
    let right (ty : Byte) :=
      ck.toNat = (ty.toNat + d1.toNat + d2.toNat + d3.toNat + d4.toNat + d5.toNat) % 256
    let good (ty : Byte) (m : Msg) := s.out ++ [.data (F ty), .message m]
    let bad (ty : Byte) : Host.Outcome State Fault Refusal :=
      .next { s with out := s.out ++ [.data (F ty), .messageError (F ty) .invalidFrame] }
    let m : Mode := if d2 = 0 then .active else .query
    (right s.cfg.cmdMode → exec (.inModeResp d1 d2 d3 d4 d5 ck) s =
      .next { s with mode := .val m, out := good s.cfg.cmdMode (.mode m) }) ∧
    (right s.cfg.cmdPower → exec (.inSleepResp d1 d2 d3 d4 d5 ck) s =
      .next { s with
        sleeping := .val (decide (d2 = 0)), out := good s.cfg.cmdPower (.sleep (decide (d2 = 0))) }) ∧
    (right s.cfg.cmdFirmware → exec (.inFirmwareResp d1 d2 d3 d4 d5 ck) s =
      .next { s with
        fw := .val { year := d1, month := d2, day := d3 },
        out := good s.cfg.cmdFirmware (.firmware d1 d2 d3) }) ∧
    (right s.cfg.cmdPeriod → exec (.inPeriodResp d1 d2 d3 d4 d5 ck) s =
      .next { s with period := .val d2, out := good s.cfg.cmdPeriod (.period d2) }) ∧
    (¬right s.cfg.cmdMode → exec (.inModeResp d1 d2 d3 d4 d5 ck) s = bad s.cfg.cmdMode) ∧
    (¬right s.cfg.cmdPower → exec (.inSleepResp d1 d2 d3 d4 d5 ck) s = bad s.cfg.cmdPower) ∧
    (¬right s.cfg.cmdFirmware → exec (.inFirmwareResp d1 d2 d3 d4 d5 ck) s = bad s.cfg.cmdFirmware) ∧
    (¬right s.cfg.cmdPeriod → exec (.inPeriodResp d1 d2 d3 d4 d5 ck) s = bad s.cfg.cmdPeriod)

/-- An inbound frame row is, in every state, the PUSH of its own code bytes (30_encoding.md section 1;
log 7). -/
def Obligations.InboundFramesArriveAsChunks : Prop :=
  ∀ (s : State) (d0 d1 d2 d3 d4 d5 ck : Byte),
    (∀ i ∈ [Instr.inReading d0 d1 d2 d3 d4 d5 ck, .inModeResp d1 d2 d3 d4 d5 ck,
        .inSleepResp d1 d2 d3 d4 d5 ck, .inFirmwareResp d1 d2 d3 d4 d5 ck,
        .inPeriodResp d1 d2 d3 d4 d5 ck],
      exec i s = exec (.push (encodeCode s.cfg i)) s)

/-- The register view: a PENDING field reads 0, a value reads with its V bit above it, the status bits and
the counter read as they are (10_state.md section 6, R51; the numbering and packing are decision D42). -/
def Obligations.RegisterViewReadsTheState : Prop :=
  ∀ s : State, s.Inv →
    readReg s 0 = some (match s.pm25 with | .pending => 0 | .val v => 65536 + v.toNat) ∧
    readReg s 1 = some (match s.pm10 with | .pending => 0 | .val v => 65536 + v.toNat) ∧
    readReg s 2 = some (match s.mode with | .pending => 0 | .val .active => 2 | .val .query => 3) ∧
    readReg s 3 = some (match s.sleeping with | .pending => 0 | .val b => 2 + b.toNat) ∧
    readReg s 4 = some (match s.fw with
      | .pending => 0
      | .val f => 16777216 + f.year.toNat * 65536 + f.month.toNat * 256 + f.day.toNat) ∧
    readReg s 5 = some (match s.period with | .pending => 0 | .val b => 256 + b.toNat) ∧
    readReg s 6 = some s.closed.toNat ∧
    readReg s 7 = some (s.timerArmed.toNat * 2 + if s.q = [] then 0 else 1) ∧
    readReg s 8 = some s.rc ∧
    readReg s 9 = some s.q.length

/-! ### Command scheduler and catalogue -/

/-- The four requests without a value, ENQ_QUERY_READING, ENQ_GET_MODE, ENQ_GET_FIRMWARE and ENQ_GET_PERIOD,
into an idle scheduler: the request is queued, the fields it observes become PENDING, its frame is
written and the timer armed, all in the same transaction (44_commands.md section 2, R281, R283, R285,
R287; 43_scheduler.md R255; decisions D4, D6). -/
def Obligations.EnqueueOfAQueryRunsItsFirstTick : Prop :=
  ∀ (tag : Token) (idstr : Option Text) (id : Option Half) (s : State), IdleOpen s →
    parseId idstr = .ok id →
    let queued (r : Request) : List Desc := [{ req := r, id := id, tag := tag }]
    let written (ty : Byte) :=
      s.out ++ [.write (commandFrame s.cfg ty s.cfg.modeGet 0 (targetId s.cfg id))]
    exec (.enqQueryReading tag idstr) s = .next { s with
      q := queued .queryReading, rc := 1, sst := .processing, timerArmed := true,
      pm25 := .pending, pm10 := .pending, out := written s.cfg.cmdQuery } ∧
    exec (.enqGetMode tag idstr) s = .next { s with
      q := queued .getMode, rc := 1, sst := .processing, timerArmed := true,
      mode := .pending, out := written s.cfg.cmdMode } ∧
    exec (.enqGetFirmware tag idstr) s = .next { s with
      q := queued .getFirmware, rc := 1, sst := .processing, timerArmed := true,
      fw := .pending, out := written s.cfg.cmdFirmware } ∧
    exec (.enqGetPeriod tag idstr) s = .next { s with
      q := queued .getPeriod, rc := 1, sst := .processing, timerArmed := true,
      period := .pending, out := written s.cfg.cmdPeriod }

/-- The three requests with a value, ENQ_SET_MODE, ENQ_SET_SLEEP and ENQ_SET_PERIOD, into an idle scheduler:
the same, with the value in the queue and in the frame's argument byte (mode 0 active and 1 query, 0
for sleep and 1 for waking, the minutes), for every recognized mode token and all minutes from 0 to
PERIOD_MAX (44_commands.md section 2, R282, R284, R286; 43_scheduler.md R255; decisions D6, D27,
D34). -/
def Obligations.EnqueueOfASettingRunsItsFirstTick : Prop :=
  ∀ (tag : Token) (idstr : Option Text) (id : Option Half) (s : State), IdleOpen s →
    parseId idstr = .ok id →
    let queued (r : Request) : List Desc := [{ req := r, id := id, tag := tag }]
    let written (ty arg : Byte) :=
      s.out ++ [.write (commandFrame s.cfg ty s.cfg.modeSet arg (targetId s.cfg id))]
    (∀ mtok : Byte, mtok.toNat ≤ 1 → exec (.enqSetMode tag mtok idstr) s = .next { s with
      q := queued (.setMode (if mtok = 0 then .active else .query)), rc := 1, sst := .processing,
      timerArmed := true, mode := .pending, out := written s.cfg.cmdMode mtok }) ∧
    (∀ sleep : Bool, exec (.enqSetSleep tag sleep idstr) s = .next { s with
      q := queued (.setSleep sleep), rc := 1, sst := .processing,
      timerArmed := true, sleeping := .pending,
      out := written s.cfg.cmdPower (if sleep then 0 else 1) }) ∧
    (∀ minutes : Int, 0 ≤ minutes → minutes ≤ s.cfg.periodMax →
      exec (.enqSetPeriod tag minutes idstr) s = .next { s with
        q := queued (.setPeriod (u8 minutes.toNat)), rc := 1, sst := .processing,
        timerArmed := true, period := .pending,
        out := written s.cfg.cmdPeriod (u8 minutes.toNat) })

/-- A request behind others only joins the tail of the queue: no tick, no write, no change of the counter,
the timer or any field, for all seven ENQ_* transactions (43_scheduler.md section 4, R256, which the
spec derives). -/
def Obligations.EnqueueBehindOthersOnlyAppends : Prop :=
  ∀ (r : Request) (tag : Token) (idstr : Option Text) (id : Option Half) (s : State),
    requestOk s.cfg r → s.closed = false → s.sst = .processing → parseId idstr = .ok id →
      exec (enqOf r tag idstr) s = .next { s with q := s.q ++ [{ req := r, id := id, tag := tag }] }

/-- A request after CLOSE is dropped without an event, or settled with ConnectionClosed under the other
policy (43_scheduler.md section 4; decision D17). -/
def Obligations.EnqueueAfterCloseFollowsThePolicy : Prop :=
  ∀ (r : Request) (tag : Token) (idstr : Option Text) (id : Option Half) (s : State),
    requestOk s.cfg r → s.closed = true → parseId idstr = .ok id →
      exec (enqOf r tag idstr) s = .next (match s.cfg.closedEnqueue with
        | .dropUnsettled => s
        | .failClosed => { s with out := s.out ++ [.settle tag (.failure .connectionClosed)] })

/-- Caller input errors: a bad mode token, minutes out of range or a malformed id give one InputError and
change nothing else, in every state (60_exceptions.md section 1, R325; 44_commands.md section 1). That
a bad operand is reported whatever the id string, and that errors come on a closed block too, is
decision D16; that the mode tokens are 0 and 1 is decision D27 (both log 22). -/
def Obligations.InputErrorsChangeNothingElse : Prop :=
  ∀ (tag : Token) (idstr : Option Text) (s : State),
    (∀ mtok : Byte, mtok ≠ 0 → mtok ≠ 1 → exec (.enqSetMode tag mtok idstr) s =
      .next { s with out := s.out ++ [.inputError tag .invalidMode] }) ∧
    (∀ minutes : Int, minutes < 0 ∨ s.cfg.periodMax < minutes → exec (.enqSetPeriod tag minutes idstr) s =
      .next { s with out := s.out ++ [.inputError tag .periodOutOfRange] }) ∧
    (∀ r : Request, requestOk s.cfg r → parseId idstr = .error .malformedId →
      exec (enqOf r tag idstr) s = .next { s with out := s.out ++ [.inputError tag .malformedId] })

/-- TIMER, code 0x02, is enabled exactly while the timer is armed; it disarms the timer and runs a tick;
the host cannot issue it, armed or not; after CLOSE it is never enabled (43_scheduler.md section 4,
R258). A TIMER that is not enabled or comes from another role is marked and passed over
(70_reset_and_hazards.md section 3, R369 (c); vector SC-19; log 28). That transactions come as packets on a
channel is log 1, the refusal of another issuer log 6, the code decision D29's (log 26). -/
def Obligations.TimerIsEnabledIffArmed : Prop :=
  ∀ s : State,
    (s.timerArmed = true → exec .timer s = .next (tick { s with timerArmed := false })) ∧
    (s.timerArmed = false → exec .timer s = .refused .timerDisarmed) ∧
    (s.Inv → s.closed = true → exec .timer s = .refused .timerDisarmed) ∧
    (∀ (p : Packet) (rest : List Packet), s.chan = p :: rest → p.code = [0x02] →
      let marked (r : Refusal) : State := { s with
        chan := rest, refusals := s.refusals ++ [{ packet := p, reason := r }] }
      (p.issuer = .block → s.timerArmed = true → step s = exec .timer { s with chan := rest }) ∧
      (p.issuer = .block → s.timerArmed = false → step s = .next (marked .timerDisarmed)) ∧
      (p.issuer ≠ .block → step s = .next (marked .wrongIssuer)))

/-- A tick that finds the head unfulfilled within its budget counts once, writes the head's frame once
more and arms the timer again; nothing else changes (43_scheduler.md section 2, R249; decision D23). -/
def Obligations.TimerRetriesAnUnfulfilledHead : Prop :=
  ∀ (s : State) (d : Desc) (rest : List Desc), s.timerArmed = true → s.q = d :: rest → 1 ≤ s.rc →
    s.rc < s.cfg.retryBudget → outcome d.req s = none →
      exec .timer s = .next { s with
        rc := s.rc + 1, out := s.out ++ [.write (descFrame s.cfg d)] }

/-- A tick that finds the head fulfilled within its budget settles it with its result and hands over to
the next head at once (43_scheduler.md section 2, R248; decision D24 on the result values). -/
def Obligations.TimerSettlesAFulfilledHead : Prop :=
  ∀ (s : State) (d : Desc) (rest : List Desc) (v : Value), s.timerArmed = true → s.q = d :: rest →
    1 ≤ s.rc → s.rc < s.cfg.retryBudget → outcome d.req s = some v →
      exec .timer s = .next
        (handOver rest { s with out := s.out ++ [.settle d.tag (.success v)] })

/-- The tick after the last write of the budget fails the head even if its predicate now holds, writes
nothing for it, and hands over to the next head at once (43_scheduler.md section 2, R247, R248). -/
def Obligations.TimerExhaustsTheHead : Prop :=
  ∀ (s : State) (d : Desc) (rest : List Desc), s.timerArmed = true → s.q = d :: rest → 1 ≤ s.rc →
    1 ≤ s.cfg.retryBudget → s.cfg.retryBudget ≤ s.rc →
      exec .timer s = .next
        (handOver rest { s with out := s.out ++ [.settle d.tag (.failure .commandExhausted)] })

/-- What counts as fulfilled, and the result, for each operation (44_commands.md section 2, R281 to R287;
the result values are decision D24's). -/
def Obligations.FulfilmentPredicates : Prop :=
  ∀ (s : State) (v : Value),
    (outcome .queryReading s = some v ↔ ∃ a b, s.pm25 = .val a ∧ s.pm10 = .val b ∧ v = .reading a b) ∧
    (∀ m, outcome (.setMode m) s = some v ↔ s.mode = .val m ∧ v = .mode m) ∧
    (outcome .getMode s = some v ↔ ∃ m, s.mode = .val m ∧ v = .mode m) ∧
    (∀ b, outcome (.setSleep b) s = some v ↔ s.sleeping = .val b ∧ v = .sleep b) ∧
    (outcome .getFirmware s = some v ↔ ∃ f, s.fw = .val f ∧ v = .firmware (renderFw f)) ∧
    (∀ p, outcome (.setPeriod p) s = some v ↔ s.period = .val p ∧ v = .period p) ∧
    (outcome .getPeriod s = some v ↔ ∃ p, s.period = .val p ∧ v = .period p)

/-- Exactly the budget's number of writes: with no input, a head that has just had its first tick and is
not fulfilled is written again at each timer step until it has RETRY_BUDGET writes, and the timer step
after that fails it and hands over (43_scheduler.md section 3, R251, R252, which the spec
derives; that the timer fires on an empty channel is log 3). -/
def Obligations.ExactlyTheBudgetOfWrites : Prop :=
  ∀ (s : State) (d : Desc) (rest : List Desc), s.chan = [] → s.timerArmed = true → s.q = d :: rest →
    s.rc = 1 → 1 ≤ s.cfg.retryBudget → outcome d.req s = none →
      (∀ k, k < s.cfg.retryBudget → core.run k s = .next { s with
        rc := 1 + k, out := s.out ++ List.replicate k (.write (descFrame s.cfg d)) }) ∧
      core.run s.cfg.retryBudget s = .next (handOver rest { s with
        out := s.out ++ List.replicate (s.cfg.retryBudget - 1) (.write (descFrame s.cfg d)) ++
          [.settle d.tag (.failure .commandExhausted)] })

/-- One transaction writes at most one frame (43_scheduler.md section 3, R254, which the spec derives), and
an idle block writes only in an accepted request, so its first Write after reset comes from the first
accepted one (70_reset_and_hazards.md section 1, R361, decision D5; decision D6; log 8 for the outbound
frame rows). -/
def Obligations.AtMostOneWriteEach : Prop :=
  ∀ (i : Instr) (s t : State), exec i s = .next t →
    t.out.countP isWrite ≤ s.out.countP isWrite + 1 ∧
    (s.Inv → s.sst = .idle →
      t.out.countP isWrite = s.out.countP isWrite ∨
      (isRequest i = true ∧ s.closed = false ∧ t.sst = .processing))

/-- FIFO service: a timer step pops a leading part of the queue and settles exactly those descriptors, once
each and in queue order (43_scheduler.md sections 2 and 3, R250, R252, which the spec derives). -/
def Obligations.SettlesInQueueOrder : Prop :=
  ∀ s t : State, exec .timer s = .next t →
    ∃ k, k ≤ s.q.length ∧ t.q = s.q.drop k ∧
      settledTags (newEvents s t) = (s.q.take k).map Desc.tag

/-- Without further input a reachable state becomes quiescent within RETRY_BUDGET timer steps for each
queued command (70_reset_and_hazards.md section 3, R368, which the spec derives; log 3). -/
def Obligations.QuiescentWithinTheBudget : Prop :=
  ∀ s : State, s.Inv → s.chan = [] →
    ∃ k, k ≤ s.q.length * s.cfg.retryBudget ∧
      ∃ t, core.run k s = .next t ∧ t.q = [] ∧ t.timerArmed = false

/-- The first CLOSE: closed, queue and buffer empty, counter 0, idle, disarmed, one TransportClose, and no
other element changes; under fail_closed each dropped command settles first, in queue order
(43_scheduler.md section 4, R262, R264; decisions D18, D19). -/
def Obligations.CloseEmptiesTheScheduler : Prop :=
  ∀ s : State, s.closed = false →
    exec .close s = .next { s with
      closed := true, q := [], rc := 0, sst := .idle, timerArmed := false, buf := [],
      out := s.out ++
        (match s.cfg.teardown with
          | .leaveUnsettled => []
          | .failClosed => s.q.map (fun d => .settle d.tag (.failure .connectionClosed))) ++
        [.transportClose] }

/-- Closing an already closed connection is a no-op with a notice (43_scheduler.md R263; 60_exceptions.md
R326). -/
def Obligations.SecondCloseIsANotice : Prop :=
  ∀ s : State, s.closed = true →
    exec .close s = .next { s with out := s.out ++ [.notice .alreadyClosed] }

/-- A transport error passes through unchanged and changes nothing else, even after CLOSE (60_exceptions.md
section 6, R346; decision D20). -/
def Obligations.TransportErrorsPassThrough : Prop :=
  ∀ (err : Token) (s : State),
    exec (.transportError err) s = .next { s with out := s.out ++ [.transportError err] }

/-- An outbound frame row is the block's own step that writes that frame: it does what TIMER does where TIMER
writes the frame, and nothing where TIMER writes another or none, or is disarmed. So for a head that
TIMER would write again it counts once and writes the frame, whose bytes are the R104 layout and, for a
well-formed row, its own code bytes (43_scheduler.md sections 1 and 2, R241, R249; 30_encoding.md
section 2; 70_reset_and_hazards.md section 1; that a row is this step is the model's choice, log 8). -/
def Obligations.OutboundFramesAreWritten : Prop :=
  ∀ (r : Request) (id : Half) (ck : Byte) (s : State),
    let row := outOf r id ck
    let F := commandFrame s.cfg (typeModeArg s.cfg r).1 (typeModeArg s.cfg r).2.1
      (typeModeArg s.cfg r).2.2 id
    (∀ t, exec .timer s = .next t → .write F ∈ newEvents s t → exec row s = .next t) ∧
    (∀ t, exec .timer s = .next t → .write F ∉ newEvents s t → exec row s = .next s) ∧
    (s.timerArmed = false → exec row s = .next s) ∧
    (∀ d rest, s.timerArmed = true → s.q = d :: rest → d.req = r → targetId s.cfg d.id = id →
      1 ≤ s.rc → s.rc < s.cfg.retryBudget → outcome r s = none →
        exec row s = .next { s with rc := s.rc + 1, out := s.out ++ [.write F] }) ∧
    (Instr.wf s.cfg row = true → encodeCode s.cfg row = F)

/-- The block never compares tags: renaming every tag of the queue, the trace and the instruction renames the
tags of the result and changes nothing else (70_reset_and_hazards.md section 2; decision D39; log 14). -/
def Obligations.TagsAreOpaque : Prop :=
  ∀ (f : Token → Token) (i : Instr) (s : State),
    exec (instrMapTag f i) (s.mapTag f) = outcomeMapTag f (exec i s)
end

