-- ==== Sys2Proof/Laws/State.lean ====
section
/-!
SUPPORT. One simp lemma per field for each named update of State, so that no later proof unfolds a record
update.
-/

namespace Sys2Proof.Machine

open Sys2Proof

@[simp] theorem emit_buf (e : Event) (s : State) : (emit e s).buf = s.buf := rfl
@[simp] theorem emit_pm25 (e : Event) (s : State) : (emit e s).pm25 = s.pm25 := rfl
@[simp] theorem emit_pm10 (e : Event) (s : State) : (emit e s).pm10 = s.pm10 := rfl
@[simp] theorem emit_mode (e : Event) (s : State) : (emit e s).mode = s.mode := rfl
@[simp] theorem emit_sleeping (e : Event) (s : State) : (emit e s).sleeping = s.sleeping := rfl
@[simp] theorem emit_fw (e : Event) (s : State) : (emit e s).fw = s.fw := rfl
@[simp] theorem emit_period (e : Event) (s : State) : (emit e s).period = s.period := rfl
@[simp] theorem emit_closed (e : Event) (s : State) : (emit e s).closed = s.closed := rfl
@[simp] theorem emit_q (e : Event) (s : State) : (emit e s).q = s.q := rfl
@[simp] theorem emit_rc (e : Event) (s : State) : (emit e s).rc = s.rc := rfl
@[simp] theorem emit_sst (e : Event) (s : State) : (emit e s).sst = s.sst := rfl
@[simp] theorem emit_timerArmed (e : Event) (s : State) : (emit e s).timerArmed = s.timerArmed := rfl
@[simp] theorem emit_out (e : Event) (s : State) : (emit e s).out = s.out ++ [e] := rfl
@[simp] theorem emit_chan (e : Event) (s : State) : (emit e s).chan = s.chan := rfl
@[simp] theorem emit_cfg (e : Event) (s : State) : (emit e s).cfg = s.cfg := rfl
@[simp] theorem emit_refusals (e : Event) (s : State) : (emit e s).refusals = s.refusals := rfl

@[simp] theorem raise_buf (e : ErrorReport) (s : State) : (raise e s).buf = s.buf := rfl
@[simp] theorem raise_pm25 (e : ErrorReport) (s : State) : (raise e s).pm25 = s.pm25 := rfl
@[simp] theorem raise_pm10 (e : ErrorReport) (s : State) : (raise e s).pm10 = s.pm10 := rfl
@[simp] theorem raise_mode (e : ErrorReport) (s : State) : (raise e s).mode = s.mode := rfl
@[simp] theorem raise_sleeping (e : ErrorReport) (s : State) : (raise e s).sleeping = s.sleeping := rfl
@[simp] theorem raise_fw (e : ErrorReport) (s : State) : (raise e s).fw = s.fw := rfl
@[simp] theorem raise_period (e : ErrorReport) (s : State) : (raise e s).period = s.period := rfl
@[simp] theorem raise_closed (e : ErrorReport) (s : State) : (raise e s).closed = s.closed := rfl
@[simp] theorem raise_q (e : ErrorReport) (s : State) : (raise e s).q = s.q := rfl
@[simp] theorem raise_rc (e : ErrorReport) (s : State) : (raise e s).rc = s.rc := rfl
@[simp] theorem raise_sst (e : ErrorReport) (s : State) : (raise e s).sst = s.sst := rfl
@[simp] theorem raise_timerArmed (e : ErrorReport) (s : State) : (raise e s).timerArmed = s.timerArmed := rfl
@[simp] theorem raise_out (e : ErrorReport) (s : State) : (raise e s).out = s.out ++ [errorEvent e] := rfl
@[simp] theorem raise_chan (e : ErrorReport) (s : State) : (raise e s).chan = s.chan := rfl
@[simp] theorem raise_cfg (e : ErrorReport) (s : State) : (raise e s).cfg = s.cfg := rfl
@[simp] theorem raise_refusals (e : ErrorReport) (s : State) : (raise e s).refusals = s.refusals := rfl

@[simp] theorem turnAway_buf (p : Packet) (r : Refusal) (s : State) : (turnAway p r s).buf = s.buf := rfl
@[simp] theorem turnAway_pm25 (p : Packet) (r : Refusal) (s : State) : (turnAway p r s).pm25 = s.pm25 := rfl
@[simp] theorem turnAway_pm10 (p : Packet) (r : Refusal) (s : State) : (turnAway p r s).pm10 = s.pm10 := rfl
@[simp] theorem turnAway_mode (p : Packet) (r : Refusal) (s : State) : (turnAway p r s).mode = s.mode := rfl
@[simp] theorem turnAway_sleeping (p : Packet) (r : Refusal) (s : State) : (turnAway p r s).sleeping = s.sleeping := rfl
@[simp] theorem turnAway_fw (p : Packet) (r : Refusal) (s : State) : (turnAway p r s).fw = s.fw := rfl
@[simp] theorem turnAway_period (p : Packet) (r : Refusal) (s : State) : (turnAway p r s).period = s.period := rfl
@[simp] theorem turnAway_closed (p : Packet) (r : Refusal) (s : State) : (turnAway p r s).closed = s.closed := rfl
@[simp] theorem turnAway_q (p : Packet) (r : Refusal) (s : State) : (turnAway p r s).q = s.q := rfl
@[simp] theorem turnAway_rc (p : Packet) (r : Refusal) (s : State) : (turnAway p r s).rc = s.rc := rfl
@[simp] theorem turnAway_sst (p : Packet) (r : Refusal) (s : State) : (turnAway p r s).sst = s.sst := rfl
@[simp] theorem turnAway_timerArmed (p : Packet) (r : Refusal) (s : State) : (turnAway p r s).timerArmed = s.timerArmed := rfl
@[simp] theorem turnAway_out (p : Packet) (r : Refusal) (s : State) : (turnAway p r s).out = s.out := rfl
@[simp] theorem turnAway_chan (p : Packet) (r : Refusal) (s : State) : (turnAway p r s).chan = s.chan := rfl
@[simp] theorem turnAway_cfg (p : Packet) (r : Refusal) (s : State) : (turnAway p r s).cfg = s.cfg := rfl
@[simp] theorem turnAway_refusals (p : Packet) (r : Refusal) (s : State) :
    (turnAway p r s).refusals = s.refusals ++ [{ packet := p, reason := r }] := rfl

@[simp] theorem bufAppend_buf (chunk : List Byte) (s : State) : (bufAppend chunk s).buf = s.buf ++ chunk := rfl
@[simp] theorem bufAppend_pm25 (chunk : List Byte) (s : State) : (bufAppend chunk s).pm25 = s.pm25 := rfl
@[simp] theorem bufAppend_pm10 (chunk : List Byte) (s : State) : (bufAppend chunk s).pm10 = s.pm10 := rfl
@[simp] theorem bufAppend_mode (chunk : List Byte) (s : State) : (bufAppend chunk s).mode = s.mode := rfl
@[simp] theorem bufAppend_sleeping (chunk : List Byte) (s : State) : (bufAppend chunk s).sleeping = s.sleeping := rfl
@[simp] theorem bufAppend_fw (chunk : List Byte) (s : State) : (bufAppend chunk s).fw = s.fw := rfl
@[simp] theorem bufAppend_period (chunk : List Byte) (s : State) : (bufAppend chunk s).period = s.period := rfl
@[simp] theorem bufAppend_closed (chunk : List Byte) (s : State) : (bufAppend chunk s).closed = s.closed := rfl
@[simp] theorem bufAppend_q (chunk : List Byte) (s : State) : (bufAppend chunk s).q = s.q := rfl
@[simp] theorem bufAppend_rc (chunk : List Byte) (s : State) : (bufAppend chunk s).rc = s.rc := rfl
@[simp] theorem bufAppend_sst (chunk : List Byte) (s : State) : (bufAppend chunk s).sst = s.sst := rfl
@[simp] theorem bufAppend_timerArmed (chunk : List Byte) (s : State) : (bufAppend chunk s).timerArmed = s.timerArmed := rfl
@[simp] theorem bufAppend_out (chunk : List Byte) (s : State) : (bufAppend chunk s).out = s.out := rfl
@[simp] theorem bufAppend_chan (chunk : List Byte) (s : State) : (bufAppend chunk s).chan = s.chan := rfl
@[simp] theorem bufAppend_cfg (chunk : List Byte) (s : State) : (bufAppend chunk s).cfg = s.cfg := rfl
@[simp] theorem bufAppend_refusals (chunk : List Byte) (s : State) : (bufAppend chunk s).refusals = s.refusals := rfl

@[simp] theorem bufDrop_buf (n : Nat) (s : State) : (bufDrop n s).buf = s.buf.drop n := rfl
@[simp] theorem bufDrop_pm25 (n : Nat) (s : State) : (bufDrop n s).pm25 = s.pm25 := rfl
@[simp] theorem bufDrop_pm10 (n : Nat) (s : State) : (bufDrop n s).pm10 = s.pm10 := rfl
@[simp] theorem bufDrop_mode (n : Nat) (s : State) : (bufDrop n s).mode = s.mode := rfl
@[simp] theorem bufDrop_sleeping (n : Nat) (s : State) : (bufDrop n s).sleeping = s.sleeping := rfl
@[simp] theorem bufDrop_fw (n : Nat) (s : State) : (bufDrop n s).fw = s.fw := rfl
@[simp] theorem bufDrop_period (n : Nat) (s : State) : (bufDrop n s).period = s.period := rfl
@[simp] theorem bufDrop_closed (n : Nat) (s : State) : (bufDrop n s).closed = s.closed := rfl
@[simp] theorem bufDrop_q (n : Nat) (s : State) : (bufDrop n s).q = s.q := rfl
@[simp] theorem bufDrop_rc (n : Nat) (s : State) : (bufDrop n s).rc = s.rc := rfl
@[simp] theorem bufDrop_sst (n : Nat) (s : State) : (bufDrop n s).sst = s.sst := rfl
@[simp] theorem bufDrop_timerArmed (n : Nat) (s : State) : (bufDrop n s).timerArmed = s.timerArmed := rfl
@[simp] theorem bufDrop_out (n : Nat) (s : State) : (bufDrop n s).out = s.out := rfl
@[simp] theorem bufDrop_chan (n : Nat) (s : State) : (bufDrop n s).chan = s.chan := rfl
@[simp] theorem bufDrop_cfg (n : Nat) (s : State) : (bufDrop n s).cfg = s.cfg := rfl
@[simp] theorem bufDrop_refusals (n : Nat) (s : State) : (bufDrop n s).refusals = s.refusals := rfl

@[simp] theorem execute_buf (d : Desc) (s : State) : (execute d s).buf = s.buf := rfl
@[simp] theorem execute_pm25 (d : Desc) (s : State) : (execute d s).pm25 = s.pm25 := rfl
@[simp] theorem execute_pm10 (d : Desc) (s : State) : (execute d s).pm10 = s.pm10 := rfl
@[simp] theorem execute_mode (d : Desc) (s : State) : (execute d s).mode = s.mode := rfl
@[simp] theorem execute_sleeping (d : Desc) (s : State) : (execute d s).sleeping = s.sleeping := rfl
@[simp] theorem execute_fw (d : Desc) (s : State) : (execute d s).fw = s.fw := rfl
@[simp] theorem execute_period (d : Desc) (s : State) : (execute d s).period = s.period := rfl
@[simp] theorem execute_closed (d : Desc) (s : State) : (execute d s).closed = s.closed := rfl
@[simp] theorem execute_q (d : Desc) (s : State) : (execute d s).q = s.q := rfl
@[simp] theorem execute_rc (d : Desc) (s : State) : (execute d s).rc = s.rc := rfl
@[simp] theorem execute_sst (d : Desc) (s : State) : (execute d s).sst = s.sst := rfl
@[simp] theorem execute_timerArmed (d : Desc) (s : State) : (execute d s).timerArmed = s.timerArmed := rfl
@[simp] theorem execute_out (d : Desc) (s : State) : (execute d s).out = s.out ++ [.write (descFrame s.cfg d)] := rfl
@[simp] theorem execute_chan (d : Desc) (s : State) : (execute d s).chan = s.chan := rfl
@[simp] theorem execute_cfg (d : Desc) (s : State) : (execute d s).cfg = s.cfg := rfl
@[simp] theorem execute_refusals (d : Desc) (s : State) : (execute d s).refusals = s.refusals := rfl

@[simp] theorem executeAndWait_buf (d : Desc) (s : State) : (executeAndWait d s).buf = s.buf := rfl
@[simp] theorem executeAndWait_pm25 (d : Desc) (s : State) : (executeAndWait d s).pm25 = s.pm25 := rfl
@[simp] theorem executeAndWait_pm10 (d : Desc) (s : State) : (executeAndWait d s).pm10 = s.pm10 := rfl
@[simp] theorem executeAndWait_mode (d : Desc) (s : State) : (executeAndWait d s).mode = s.mode := rfl
@[simp] theorem executeAndWait_sleeping (d : Desc) (s : State) : (executeAndWait d s).sleeping = s.sleeping := rfl
@[simp] theorem executeAndWait_fw (d : Desc) (s : State) : (executeAndWait d s).fw = s.fw := rfl
@[simp] theorem executeAndWait_period (d : Desc) (s : State) : (executeAndWait d s).period = s.period := rfl
@[simp] theorem executeAndWait_closed (d : Desc) (s : State) : (executeAndWait d s).closed = s.closed := rfl
@[simp] theorem executeAndWait_q (d : Desc) (s : State) : (executeAndWait d s).q = s.q := rfl
@[simp] theorem executeAndWait_rc (d : Desc) (s : State) : (executeAndWait d s).rc = s.rc := rfl
@[simp] theorem executeAndWait_sst (d : Desc) (s : State) : (executeAndWait d s).sst = s.sst := rfl
@[simp] theorem executeAndWait_timerArmed (d : Desc) (s : State) : (executeAndWait d s).timerArmed = true := rfl
@[simp] theorem executeAndWait_out (d : Desc) (s : State) : (executeAndWait d s).out = s.out ++ [.write (descFrame s.cfg d)] := rfl
@[simp] theorem executeAndWait_chan (d : Desc) (s : State) : (executeAndWait d s).chan = s.chan := rfl
@[simp] theorem executeAndWait_cfg (d : Desc) (s : State) : (executeAndWait d s).cfg = s.cfg := rfl
@[simp] theorem executeAndWait_refusals (d : Desc) (s : State) : (executeAndWait d s).refusals = s.refusals := rfl

@[simp] theorem countTick_buf (s : State) : (countTick s).buf = s.buf := rfl
@[simp] theorem countTick_pm25 (s : State) : (countTick s).pm25 = s.pm25 := rfl
@[simp] theorem countTick_pm10 (s : State) : (countTick s).pm10 = s.pm10 := rfl
@[simp] theorem countTick_mode (s : State) : (countTick s).mode = s.mode := rfl
@[simp] theorem countTick_sleeping (s : State) : (countTick s).sleeping = s.sleeping := rfl
@[simp] theorem countTick_fw (s : State) : (countTick s).fw = s.fw := rfl
@[simp] theorem countTick_period (s : State) : (countTick s).period = s.period := rfl
@[simp] theorem countTick_closed (s : State) : (countTick s).closed = s.closed := rfl
@[simp] theorem countTick_q (s : State) : (countTick s).q = s.q := rfl
@[simp] theorem countTick_rc (s : State) : (countTick s).rc = s.rc + 1 := rfl
@[simp] theorem countTick_sst (s : State) : (countTick s).sst = s.sst := rfl
@[simp] theorem countTick_timerArmed (s : State) : (countTick s).timerArmed = s.timerArmed := rfl
@[simp] theorem countTick_out (s : State) : (countTick s).out = s.out := rfl
@[simp] theorem countTick_chan (s : State) : (countTick s).chan = s.chan := rfl
@[simp] theorem countTick_cfg (s : State) : (countTick s).cfg = s.cfg := rfl
@[simp] theorem countTick_refusals (s : State) : (countTick s).refusals = s.refusals := rfl

@[simp] theorem popHead_buf (rest : List Desc) (s : State) : (popHead rest s).buf = s.buf := rfl
@[simp] theorem popHead_pm25 (rest : List Desc) (s : State) : (popHead rest s).pm25 = s.pm25 := rfl
@[simp] theorem popHead_pm10 (rest : List Desc) (s : State) : (popHead rest s).pm10 = s.pm10 := rfl
@[simp] theorem popHead_mode (rest : List Desc) (s : State) : (popHead rest s).mode = s.mode := rfl
@[simp] theorem popHead_sleeping (rest : List Desc) (s : State) : (popHead rest s).sleeping = s.sleeping := rfl
@[simp] theorem popHead_fw (rest : List Desc) (s : State) : (popHead rest s).fw = s.fw := rfl
@[simp] theorem popHead_period (rest : List Desc) (s : State) : (popHead rest s).period = s.period := rfl
@[simp] theorem popHead_closed (rest : List Desc) (s : State) : (popHead rest s).closed = s.closed := rfl
@[simp] theorem popHead_q (rest : List Desc) (s : State) : (popHead rest s).q = rest := rfl
@[simp] theorem popHead_rc (rest : List Desc) (s : State) : (popHead rest s).rc = 0 := rfl
@[simp] theorem popHead_sst (rest : List Desc) (s : State) : (popHead rest s).sst = s.sst := rfl
@[simp] theorem popHead_timerArmed (rest : List Desc) (s : State) : (popHead rest s).timerArmed = s.timerArmed := rfl
@[simp] theorem popHead_out (rest : List Desc) (s : State) : (popHead rest s).out = s.out := rfl
@[simp] theorem popHead_chan (rest : List Desc) (s : State) : (popHead rest s).chan = s.chan := rfl
@[simp] theorem popHead_cfg (rest : List Desc) (s : State) : (popHead rest s).cfg = s.cfg := rfl
@[simp] theorem popHead_refusals (rest : List Desc) (s : State) : (popHead rest s).refusals = s.refusals := rfl

@[simp] theorem goIdle_buf (s : State) : (goIdle s).buf = s.buf := rfl
@[simp] theorem goIdle_pm25 (s : State) : (goIdle s).pm25 = s.pm25 := rfl
@[simp] theorem goIdle_pm10 (s : State) : (goIdle s).pm10 = s.pm10 := rfl
@[simp] theorem goIdle_mode (s : State) : (goIdle s).mode = s.mode := rfl
@[simp] theorem goIdle_sleeping (s : State) : (goIdle s).sleeping = s.sleeping := rfl
@[simp] theorem goIdle_fw (s : State) : (goIdle s).fw = s.fw := rfl
@[simp] theorem goIdle_period (s : State) : (goIdle s).period = s.period := rfl
@[simp] theorem goIdle_closed (s : State) : (goIdle s).closed = s.closed := rfl
@[simp] theorem goIdle_q (s : State) : (goIdle s).q = s.q := rfl
@[simp] theorem goIdle_rc (s : State) : (goIdle s).rc = s.rc := rfl
@[simp] theorem goIdle_sst (s : State) : (goIdle s).sst = .idle := rfl
@[simp] theorem goIdle_timerArmed (s : State) : (goIdle s).timerArmed = false := rfl
@[simp] theorem goIdle_out (s : State) : (goIdle s).out = s.out := rfl
@[simp] theorem goIdle_chan (s : State) : (goIdle s).chan = s.chan := rfl
@[simp] theorem goIdle_cfg (s : State) : (goIdle s).cfg = s.cfg := rfl
@[simp] theorem goIdle_refusals (s : State) : (goIdle s).refusals = s.refusals := rfl

@[simp] theorem shut_buf (s : State) : (shut s).buf = [] := rfl
@[simp] theorem shut_pm25 (s : State) : (shut s).pm25 = s.pm25 := rfl
@[simp] theorem shut_pm10 (s : State) : (shut s).pm10 = s.pm10 := rfl
@[simp] theorem shut_mode (s : State) : (shut s).mode = s.mode := rfl
@[simp] theorem shut_sleeping (s : State) : (shut s).sleeping = s.sleeping := rfl
@[simp] theorem shut_fw (s : State) : (shut s).fw = s.fw := rfl
@[simp] theorem shut_period (s : State) : (shut s).period = s.period := rfl
@[simp] theorem shut_closed (s : State) : (shut s).closed = true := rfl
@[simp] theorem shut_q (s : State) : (shut s).q = [] := rfl
@[simp] theorem shut_rc (s : State) : (shut s).rc = 0 := rfl
@[simp] theorem shut_sst (s : State) : (shut s).sst = .idle := rfl
@[simp] theorem shut_timerArmed (s : State) : (shut s).timerArmed = false := rfl
@[simp] theorem shut_out (s : State) : (shut s).out = s.out := rfl
@[simp] theorem shut_chan (s : State) : (shut s).chan = s.chan := rfl
@[simp] theorem shut_cfg (s : State) : (shut s).cfg = s.cfg := rfl
@[simp] theorem shut_refusals (s : State) : (shut s).refusals = s.refusals := rfl

@[simp] theorem apply_buf (m : Msg) (s : State) : (apply m s).buf = s.buf := by
  cases m <;> rfl
@[simp] theorem apply_closed (m : Msg) (s : State) : (apply m s).closed = s.closed := by
  cases m <;> rfl
@[simp] theorem apply_q (m : Msg) (s : State) : (apply m s).q = s.q := by
  cases m <;> rfl
@[simp] theorem apply_rc (m : Msg) (s : State) : (apply m s).rc = s.rc := by
  cases m <;> rfl
@[simp] theorem apply_sst (m : Msg) (s : State) : (apply m s).sst = s.sst := by
  cases m <;> rfl
@[simp] theorem apply_timerArmed (m : Msg) (s : State) : (apply m s).timerArmed = s.timerArmed := by
  cases m <;> rfl
@[simp] theorem apply_chan (m : Msg) (s : State) : (apply m s).chan = s.chan := by
  cases m <;> rfl
@[simp] theorem apply_cfg (m : Msg) (s : State) : (apply m s).cfg = s.cfg := by
  cases m <;> rfl
@[simp] theorem apply_refusals (m : Msg) (s : State) : (apply m s).refusals = s.refusals := by
  cases m <;> rfl
@[simp] theorem apply_out (m : Msg) (s : State) : (apply m s).out = s.out := by
  cases m <;> rfl

@[simp] theorem prepare_buf (op : OpKind) (s : State) : (prepare op s).buf = s.buf := by
  cases op <;> rfl
@[simp] theorem prepare_closed (op : OpKind) (s : State) : (prepare op s).closed = s.closed := by
  cases op <;> rfl
@[simp] theorem prepare_q (op : OpKind) (s : State) : (prepare op s).q = s.q := by
  cases op <;> rfl
@[simp] theorem prepare_rc (op : OpKind) (s : State) : (prepare op s).rc = s.rc := by
  cases op <;> rfl
@[simp] theorem prepare_sst (op : OpKind) (s : State) : (prepare op s).sst = s.sst := by
  cases op <;> rfl
@[simp] theorem prepare_timerArmed (op : OpKind) (s : State) : (prepare op s).timerArmed = s.timerArmed := by
  cases op <;> rfl
@[simp] theorem prepare_chan (op : OpKind) (s : State) : (prepare op s).chan = s.chan := by
  cases op <;> rfl
@[simp] theorem prepare_cfg (op : OpKind) (s : State) : (prepare op s).cfg = s.cfg := by
  cases op <;> rfl
@[simp] theorem prepare_refusals (op : OpKind) (s : State) : (prepare op s).refusals = s.refusals := by
  cases op <;> rfl
@[simp] theorem prepare_out (op : OpKind) (s : State) : (prepare op s).out = s.out := by
  cases op <;> rfl

@[simp] theorem announce_buf (m : Msg) (s : State) : (announce m s).buf = s.buf := by
  cases m with
  | reading a b => simp only [announce]; split <;> rfl
  | _ => rfl
@[simp] theorem announce_pm25 (m : Msg) (s : State) : (announce m s).pm25 = s.pm25 := by
  cases m with
  | reading a b => simp only [announce]; split <;> rfl
  | _ => rfl
@[simp] theorem announce_pm10 (m : Msg) (s : State) : (announce m s).pm10 = s.pm10 := by
  cases m with
  | reading a b => simp only [announce]; split <;> rfl
  | _ => rfl
@[simp] theorem announce_mode (m : Msg) (s : State) : (announce m s).mode = s.mode := by
  cases m with
  | reading a b => simp only [announce]; split <;> rfl
  | _ => rfl
@[simp] theorem announce_sleeping (m : Msg) (s : State) : (announce m s).sleeping = s.sleeping := by
  cases m with
  | reading a b => simp only [announce]; split <;> rfl
  | _ => rfl
@[simp] theorem announce_fw (m : Msg) (s : State) : (announce m s).fw = s.fw := by
  cases m with
  | reading a b => simp only [announce]; split <;> rfl
  | _ => rfl
@[simp] theorem announce_period (m : Msg) (s : State) : (announce m s).period = s.period := by
  cases m with
  | reading a b => simp only [announce]; split <;> rfl
  | _ => rfl
@[simp] theorem announce_closed (m : Msg) (s : State) : (announce m s).closed = s.closed := by
  cases m with
  | reading a b => simp only [announce]; split <;> rfl
  | _ => rfl
@[simp] theorem announce_q (m : Msg) (s : State) : (announce m s).q = s.q := by
  cases m with
  | reading a b => simp only [announce]; split <;> rfl
  | _ => rfl
@[simp] theorem announce_rc (m : Msg) (s : State) : (announce m s).rc = s.rc := by
  cases m with
  | reading a b => simp only [announce]; split <;> rfl
  | _ => rfl
@[simp] theorem announce_sst (m : Msg) (s : State) : (announce m s).sst = s.sst := by
  cases m with
  | reading a b => simp only [announce]; split <;> rfl
  | _ => rfl
@[simp] theorem announce_timerArmed (m : Msg) (s : State) : (announce m s).timerArmed = s.timerArmed := by
  cases m with
  | reading a b => simp only [announce]; split <;> rfl
  | _ => rfl
@[simp] theorem announce_chan (m : Msg) (s : State) : (announce m s).chan = s.chan := by
  cases m with
  | reading a b => simp only [announce]; split <;> rfl
  | _ => rfl
@[simp] theorem announce_cfg (m : Msg) (s : State) : (announce m s).cfg = s.cfg := by
  cases m with
  | reading a b => simp only [announce]; split <;> rfl
  | _ => rfl
@[simp] theorem announce_refusals (m : Msg) (s : State) : (announce m s).refusals = s.refusals := by
  cases m with
  | reading a b => simp only [announce]; split <;> rfl
  | _ => rfl

@[simp] theorem prepareFirst_buf (d : Desc) (s : State) : (prepareFirst d s).buf = s.buf := by
  unfold prepareFirst; split <;> simp
@[simp] theorem prepareFirst_closed (d : Desc) (s : State) : (prepareFirst d s).closed = s.closed := by
  unfold prepareFirst; split <;> simp
@[simp] theorem prepareFirst_q (d : Desc) (s : State) : (prepareFirst d s).q = s.q := by
  unfold prepareFirst; split <;> simp
@[simp] theorem prepareFirst_rc (d : Desc) (s : State) : (prepareFirst d s).rc = s.rc := by
  unfold prepareFirst; split <;> simp
@[simp] theorem prepareFirst_sst (d : Desc) (s : State) : (prepareFirst d s).sst = s.sst := by
  unfold prepareFirst; split <;> simp
@[simp] theorem prepareFirst_timerArmed (d : Desc) (s : State) : (prepareFirst d s).timerArmed = s.timerArmed := by
  unfold prepareFirst; split <;> simp
@[simp] theorem prepareFirst_chan (d : Desc) (s : State) : (prepareFirst d s).chan = s.chan := by
  unfold prepareFirst; split <;> simp
@[simp] theorem prepareFirst_cfg (d : Desc) (s : State) : (prepareFirst d s).cfg = s.cfg := by
  unfold prepareFirst; split <;> simp
@[simp] theorem prepareFirst_refusals (d : Desc) (s : State) : (prepareFirst d s).refusals = s.refusals := by
  unfold prepareFirst; split <;> simp
@[simp] theorem prepareFirst_out (d : Desc) (s : State) : (prepareFirst d s).out = s.out := by
  unfold prepareFirst; split <;> simp

end Sys2Proof.Machine
end

