-- ==== Sys2Proof/Laws/Framer.lean ====
section
/-!
SUPPORT. What the decode path and the framer's loop can do: each iteration consumes bytes, the bound on
the iterations is never reached, and only the buffer, the sensor-observed fields and the trace change.
-/

namespace Sys2Proof.Machine

open Sys2Proof

/-- What the decode path may do to a state (10_state.md R41 (a), 42_device_state.md R224): the scheduler's
registers, `closed`, the channel, the parameters and the refusal marks stay, and the trace gains decode
events only. -/
structure Decoded (s t : State) : Prop where
  closed : t.closed = s.closed
  q : t.q = s.q
  rc : t.rc = s.rc
  sst : t.sst = s.sst
  timerArmed : t.timerArmed = s.timerArmed
  chan : t.chan = s.chan
  cfg : t.cfg = s.cfg
  refusals : t.refusals = s.refusals
  out : ∃ es, t.out = s.out ++ es ∧ ∀ e ∈ es, isDecodeEvent e = true

theorem Decoded.refl (s : State) : Decoded s s :=
  ⟨rfl, rfl, rfl, rfl, rfl, rfl, rfl, rfl, [], by simp, by simp⟩

theorem Decoded.trans {s t u : State} (h : Decoded s t) (k : Decoded t u) : Decoded s u := by
  obtain ⟨es, he, hes⟩ := h.out
  obtain ⟨fs, hf, hfs⟩ := k.out
  refine ⟨k.closed.trans h.closed, k.q.trans h.q, k.rc.trans h.rc, k.sst.trans h.sst,
    k.timerArmed.trans h.timerArmed, k.chan.trans h.chan, k.cfg.trans h.cfg,
    k.refusals.trans h.refusals, es ++ fs, ?_, ?_⟩
  · rw [hf, he, List.append_assoc]
  · intro e hm
    exact (List.mem_append.mp hm).elim (hes e) (hfs e)

/-- Emitting one decode event is a thing the decode path may do. -/
theorem Decoded.of_emit {e : Event} (s : State) (h : isDecodeEvent e = true) : Decoded s (emit e s) :=
  ⟨rfl, rfl, rfl, rfl, rfl, rfl, rfl, rfl, [e], rfl, by simpa using h⟩

theorem announce_decoded (m : Msg) (s : State) : Decoded s (announce m s) := by
  cases m with
  | reading a b =>
    simp only [announce]
    split
    · exact Decoded.of_emit s rfl
    · exact Decoded.refl s
  | _ => exact Decoded.refl s

theorem apply_decoded (m : Msg) (s : State) : Decoded s (apply m s) :=
  ⟨by simp, by simp, by simp, by simp, by simp, by simp, by simp, by simp, [], by simp, by simp⟩

theorem handleValid_decoded (F : List Byte) (s : State) : Decoded s (handleValid F s) := by
  unfold handleValid
  split
  · exact Decoded.of_emit s rfl
  · exact ((apply_decoded _ s).trans (Decoded.of_emit _ rfl)).trans (announce_decoded _ _)

theorem dispose_decoded (cand : List Byte) (s : State) : Decoded s (dispose cand s) := by
  unfold dispose
  split
  · exact handleValid_decoded cand s
  · exact Decoded.of_emit s rfl

@[simp] theorem handleValid_buf (F : List Byte) (s : State) : (handleValid F s).buf = s.buf := by
  unfold handleValid
  split <;> simp

@[simp] theorem dispose_buf (cand : List Byte) (s : State) : (dispose cand s).buf = s.buf := by
  unfold dispose
  split <;> simp

/-- The decode path's events are neither raw data nor writes. -/
theorem isDecodeEvent_ne {e : Event} (h : isDecodeEvent e = true) :
    isData e = false ∧ isWrite e = false := by
  cases e <;> simp_all [isDecodeEvent, isData, isWrite]

theorem bufDrop_decoded (n : Nat) (s : State) : Decoded s (bufDrop n s) :=
  ⟨rfl, rfl, rfl, rfl, rfl, rfl, rfl, rfl, [], by simp, by simp⟩

theorem scanHead_decoded (s : State) : Decoded s (scanHead s) := by
  unfold scanHead takeCandidate
  split
  · exact bufDrop_decoded _ s
  · split
    · exact (bufDrop_decoded _ s).trans (dispose_decoded _ _)
    · exact bufDrop_decoded _ s

theorem scan_decoded (s : State) : Decoded s (scan s).1 := by
  unfold scan
  split
  · exact ⟨rfl, rfl, rfl, rfl, rfl, rfl, rfl, rfl, [], by simp, by simp⟩
  · exact scanHead_decoded s
  · exact bufDrop_decoded _ s

theorem extractLoop_decoded (n : Nat) (s : State) : Decoded s (extractLoop n s) := by
  induction n generalizing s with
  | zero => exact Decoded.refl s
  | succ n ih =>
    unfold extractLoop
    split
    · exact Decoded.refl s
    · have h := scan_decoded s
      split
      · rename_i t heq
        rw [heq] at h
        exact h.trans (ih t)
      · rename_i t heq
        rw [heq] at h
        exact h

theorem extract_decoded (s : State) : Decoded s (extract s) := extractLoop_decoded _ s

/-- Every iteration on a buffer of at least a frame's length removes a byte (41_framer.md R183). -/
theorem scan_consumes {s : State} (hc : s.cfg.Ok) (hl : s.cfg.inLen ≤ s.buf.length) :
    (scan s).1.buf.length < s.buf.length := by
  obtain ⟨-, -, ⟨hn, -⟩, ⟨hk, -⟩, hi, -⟩ := hc
  unfold scan
  split
  · simp; omega
  · simp only
    unfold scanHead takeCandidate
    split
    · simp; omega
    · split
      · simp; omega
      · simp; omega
  · simp; omega

/-- More iterations than bytes change nothing: the bound is never reached (41_framer.md R192). -/
theorem extractLoop_eq {n m : Nat} {s : State} (hc : s.cfg.Ok) (hn : s.buf.length ≤ n)
    (hm : s.buf.length ≤ m) : extractLoop n s = extractLoop m s := by
  have hi : 10 ≤ s.cfg.inLen := hc.2.2.2.2.1
  induction n generalizing m s with
  | zero =>
    have h0 : s.buf.length = 0 := by omega
    cases m with
    | zero => rfl
    | succ m => simp only [extractLoop]; rw [if_pos (by omega)]
  | succ n ih =>
    cases m with
    | zero => simp only [extractLoop]; rw [if_pos (by omega)]
    | succ m =>
      simp only [extractLoop]
      split
      · rfl
      · rename_i hlen
        have hs := scan_consumes hc (by omega)
        have hcfg := (scan_decoded s).cfg
        split
        · rename_i t heq
          rw [heq] at hs hcfg
          simp only at hs hcfg
          exact ih (by rw [hcfg]; exact hc) (by omega) (by omega) (by rw [hcfg]; exact hi)
        · rfl

/-- The loop equation of EXTRACT (41_framer.md R182), case by case. -/
theorem extract_short {s : State} (h : s.buf.length < s.cfg.inLen) : extract s = s := by
  unfold extract
  cases hl : s.buf.length with
  | zero => rfl
  | succ n => simp only [extractLoop]; rw [if_pos h]

theorem extract_again {s t : State} (hc : s.cfg.Ok) (hl : s.cfg.inLen ≤ s.buf.length)
    (h : scan s = (t, true)) : extract s = extract t := by
  have hs := scan_consumes hc hl
  have hcfg := (scan_decoded s).cfg
  rw [h] at hs hcfg
  simp only at hs hcfg
  have hct : t.cfg.Ok := by rw [hcfg]; exact hc
  unfold extract
  cases hn : s.buf.length with
  | zero => omega
  | succ n =>
    simp only [extractLoop]
    rw [if_neg (by omega), h]
    exact extractLoop_eq hct (by omega) (by omega)

theorem extract_halt {s t : State} (hc : s.cfg.Ok) (hl : s.cfg.inLen ≤ s.buf.length)
    (h : scan s = (t, false)) : extract s = t := by
  have hi : 10 ≤ s.cfg.inLen := hc.2.2.2.2.1
  unfold extract
  cases hn : s.buf.length with
  | zero => omega
  | succ n =>
    simp only [extractLoop]
    rw [if_neg (by omega), h]

/-- What a PUSH on an open block is: the loop after the append. -/
theorem push_open {chunk : List Byte} {s : State} (h : s.closed = false) :
    push chunk s = extract { s with buf := s.buf ++ chunk, out := s.out ++ [.data chunk] } := by
  simp [push, h, bufAppend, emit]

@[simp] theorem push_closed {chunk : List Byte} {s : State} (h : s.closed = true) :
    push chunk s = s := by
  simp [push, h]

end Sys2Proof.Machine
end

