-- ==== Sys2Proof/Laws/Bytes.lean ====
section
/-!
SUPPORT. The marker search, the checksum and the 16-bit views as statements about positions and numbers.
-/

namespace Sys2Proof

theorem byteAt_eq {B : List Byte} {i : Nat} (h : i < B.length) : byteAt B i = B[i] := by
  simp [byteAt, h]

/-- No marker from an index on. -/
theorem indexFrom_eq_none {v : Byte} {k : Nat} {B : List Byte} :
    indexFrom v k B = none ↔ v ∉ B.drop k := by
  simp [indexFrom, List.findIdx?_eq_none_iff]
  constructor
  · intro h hm; exact h v hm rfl
  · intro h x hx he; exact h (he ▸ hx)

/-- The least index from `k` on that holds the marker. -/
theorem indexFrom_eq_some {v : Byte} {k t : Nat} {B : List Byte} :
    indexFrom v k B = some t ↔
      k ≤ t ∧ t < B.length ∧ byteAt B t = v ∧ ∀ j, k ≤ j → j < t → byteAt B j ≠ v := by
  simp only [indexFrom, Option.map_eq_some_iff, List.findIdx?_eq_some_iff_getElem]
  constructor
  · rintro ⟨i, ⟨hi, hv, hb⟩, rfl⟩
    simp only [List.length_drop] at hi
    refine ⟨by omega, by omega, ?_, ?_⟩
    · rw [byteAt_eq (by omega)]
      simpa [Nat.add_comm] using hv
    · intro j hj hlt
      have h := hb (j - k) (by omega)
      rw [byteAt_eq (by omega)]
      simp only [List.getElem_drop, Bool.not_eq_true, beq_eq_false_iff_ne] at h
      have hjk : k + (j - k) = j := by omega
      simpa [hjk] using h
  · rintro ⟨hk, hl, hv, hb⟩
    refine ⟨t - k, ⟨by simp; omega, ?_, ?_⟩, by omega⟩
    · have htk : k + (t - k) = t := by omega
      rw [byteAt_eq hl] at hv
      simp [htk, hv]
    · intro j hj
      have h := hb (k + j) (by omega) (by omega)
      rw [byteAt_eq (by omega)] at h
      simpa using h

theorem indexFrom_here {v : Byte} {k : Nat} {B : List Byte} (hl : k < B.length)
    (h : byteAt B k = v) : indexFrom v k B = some k :=
  indexFrom_eq_some.mpr ⟨Nat.le_refl k, hl, h, fun j hj hlt => by omega⟩

theorem indexFrom_after {v : Byte} {g rest : List Byte} (hg : v ∉ g) :
    indexFrom v 0 (g ++ v :: rest) = some g.length := by
  rw [indexFrom_eq_some]
  refine ⟨by omega, by simp, by simp [byteAt], ?_⟩
  intro j _ hj
  rw [byteAt_eq (by simp; omega), List.getElem_append_left hj]
  intro he
  exact hg (he ▸ List.getElem_mem hj)

theorem half_toNat (hi lo : Byte) : (half hi lo).toNat = hi.toNat * 256 + lo.toNat := by
  simp only [half, BitVec.toNat_append]
  rw [← Nat.shiftLeft_add_eq_or_of_lt lo.isLt, Nat.shiftLeft_eq]

theorem hi8_toNat (v : Half) : (hi8 v).toNat = v.toNat / 256 := by
  have h := v.isLt
  simp only [hi8, BitVec.extractLsb'_toNat, Nat.shiftRight_eq_div_pow]
  omega

theorem lo8_toNat (v : Half) : (lo8 v).toNat = v.toNat % 256 := by
  simp [lo8, BitVec.extractLsb'_toNat]

@[simp] theorem hi8_half (hi lo : Byte) : hi8 (half hi lo) = hi := by
  apply BitVec.eq_of_toNat_eq
  rw [hi8_toNat, half_toNat]
  have h := lo.isLt
  omega

@[simp] theorem lo8_half (hi lo : Byte) : lo8 (half hi lo) = lo := by
  apply BitVec.eq_of_toNat_eq
  rw [lo8_toNat, half_toNat]
  have h := lo.isLt
  omega

@[simp] theorem half_hi8_lo8 (v : Half) : half (hi8 v) (lo8 v) = v := by
  apply BitVec.eq_of_toNat_eq
  rw [half_toNat, hi8_toNat, lo8_toNat]
  omega

@[simp] theorem u8_toNat (n : Nat) : (u8 n).toNat = n % 256 := by simp [u8]

theorem eq_u8_iff (b : Byte) (n : Nat) : b = u8 n ↔ b.toNat = n % 256 := by
  constructor
  · rintro rfl; exact u8_toNat n
  · intro h; apply BitVec.eq_of_toNat_eq; rw [u8_toNat, h]

@[simp] theorem u8_self (b : Byte) : u8 b.toNat = b := by simp [u8]

@[simp] theorem byteSum_nil : byteSum [] = 0 := rfl

@[simp] theorem byteSum_cons (b : Byte) (B : List Byte) : byteSum (b :: B) = b.toNat + byteSum B := by
  simp [byteSum]

@[simp] theorem byteSum_append (B C : List Byte) : byteSum (B ++ C) = byteSum B + byteSum C := by
  simp [byteSum]

end Sys2Proof
end

