-- ==== Sys2Proof/Laws/PerInstr.lean ====
section
/-!
SUPPORT. A fact of every instruction's syntax, constructor by constructor: the length of its code is its
format's (30_encoding.md R111: one transaction code byte, ten inbound or nineteen outbound bytes).
-/

namespace Sys2Proof.Laws

open Sys2Proof Sys2Proof.Machine

/-- The number of code bytes of an instruction's format. -/
def formatLength : Instr → Nat
  | .push _ => 1
  | .timer => 1
  | .close => 1
  | .transportError _ => 1
  | .enqQueryReading _ _ => 1
  | .enqSetMode _ _ _ => 1
  | .enqGetMode _ _ => 1
  | .enqSetSleep _ _ _ => 1
  | .enqGetFirmware _ _ => 1
  | .enqSetPeriod _ _ _ => 1
  | .enqGetPeriod _ _ => 1
  | .outQueryReading _ _ => 19
  | .outSetMode _ _ _ => 19
  | .outGetMode _ _ => 19
  | .outSetSleep _ _ _ => 19
  | .outGetFirmware _ _ => 19
  | .outSetPeriod _ _ _ => 19
  | .outGetPeriod _ _ => 19
  | .inReading _ _ _ _ _ _ _ => 10
  | .inModeResp _ _ _ _ _ _ => 10
  | .inSleepResp _ _ _ _ _ _ => 10
  | .inFirmwareResp _ _ _ _ _ _ => 10
  | .inPeriodResp _ _ _ _ _ _ => 10

/-- An instruction's code has its format's length, under every configuration. -/
def CodeLength.Statement (i : Instr) : Prop := ∀ c : Config, (encodeCode c i).length = formatLength i

theorem outFrame_length (c : Config) (r : Request) (id : Half) (ck : Byte) :
    (outFrame c r id ck).length = 19 := by
  simp [outFrame, outBody]

theorem CodeLength.push (chunk : List Byte) :
    CodeLength.Statement (.push chunk) := fun _ => rfl
theorem CodeLength.timer :
    CodeLength.Statement (.timer) := fun _ => rfl
theorem CodeLength.close :
    CodeLength.Statement (.close) := fun _ => rfl
theorem CodeLength.transportError (err : Token) :
    CodeLength.Statement (.transportError err) := fun _ => rfl
theorem CodeLength.enqQueryReading (tag : Token) (idstr : Option Text) :
    CodeLength.Statement (.enqQueryReading tag idstr) := fun _ => rfl
theorem CodeLength.enqSetMode (tag : Token) (mtok : Byte) (idstr : Option Text) :
    CodeLength.Statement (.enqSetMode tag mtok idstr) := fun _ => rfl
theorem CodeLength.enqGetMode (tag : Token) (idstr : Option Text) :
    CodeLength.Statement (.enqGetMode tag idstr) := fun _ => rfl
theorem CodeLength.enqSetSleep (tag : Token) (sleep : Bool) (idstr : Option Text) :
    CodeLength.Statement (.enqSetSleep tag sleep idstr) := fun _ => rfl
theorem CodeLength.enqGetFirmware (tag : Token) (idstr : Option Text) :
    CodeLength.Statement (.enqGetFirmware tag idstr) := fun _ => rfl
theorem CodeLength.enqSetPeriod (tag : Token) (minutes : Int) (idstr : Option Text) :
    CodeLength.Statement (.enqSetPeriod tag minutes idstr) := fun _ => rfl
theorem CodeLength.enqGetPeriod (tag : Token) (idstr : Option Text) :
    CodeLength.Statement (.enqGetPeriod tag idstr) := fun _ => rfl
theorem CodeLength.outQueryReading (id : Half) (ck : Byte) :
    CodeLength.Statement (.outQueryReading id ck) := fun c => outFrame_length c _ _ _
theorem CodeLength.outSetMode (mode : Mode) (id : Half) (ck : Byte) :
    CodeLength.Statement (.outSetMode mode id ck) := fun c => outFrame_length c _ _ _
theorem CodeLength.outGetMode (id : Half) (ck : Byte) :
    CodeLength.Statement (.outGetMode id ck) := fun c => outFrame_length c _ _ _
theorem CodeLength.outSetSleep (sleep : Bool) (id : Half) (ck : Byte) :
    CodeLength.Statement (.outSetSleep sleep id ck) := fun c => outFrame_length c _ _ _
theorem CodeLength.outGetFirmware (id : Half) (ck : Byte) :
    CodeLength.Statement (.outGetFirmware id ck) := fun c => outFrame_length c _ _ _
theorem CodeLength.outSetPeriod (minutes : Byte) (id : Half) (ck : Byte) :
    CodeLength.Statement (.outSetPeriod minutes id ck) := fun c => outFrame_length c _ _ _
theorem CodeLength.outGetPeriod (id : Half) (ck : Byte) :
    CodeLength.Statement (.outGetPeriod id ck) := fun c => outFrame_length c _ _ _
theorem CodeLength.inReading (d0 d1 d2 d3 d4 d5 ck : Byte) :
    CodeLength.Statement (.inReading d0 d1 d2 d3 d4 d5 ck) := fun _ => rfl
theorem CodeLength.inModeResp (d1 d2 d3 d4 d5 ck : Byte) :
    CodeLength.Statement (.inModeResp d1 d2 d3 d4 d5 ck) := fun _ => rfl
theorem CodeLength.inSleepResp (d1 d2 d3 d4 d5 ck : Byte) :
    CodeLength.Statement (.inSleepResp d1 d2 d3 d4 d5 ck) := fun _ => rfl
theorem CodeLength.inFirmwareResp (d1 d2 d3 d4 d5 ck : Byte) :
    CodeLength.Statement (.inFirmwareResp d1 d2 d3 d4 d5 ck) := fun _ => rfl
theorem CodeLength.inPeriodResp (d1 d2 d3 d4 d5 ck : Byte) :
    CodeLength.Statement (.inPeriodResp d1 d2 d3 d4 d5 ck) := fun _ => rfl

end Sys2Proof.Laws
end

