-- ==== Sys2Proof/Laws/Scheduler.lean ====
section
/-!
SUPPORT. What the scheduler's operations can do: the first tick of a descriptor always writes it, a later
tick writes, settles or fails it, and neither touches the buffer, `closed`, the channel, the parameters
or the refusal marks.
-/

namespace Sys2Proof.Machine

open Sys2Proof

/-- Right after PREPARE no predicate holds (43_scheduler.md section 3, R253). -/
theorem outcome_prepareFirst {d : Desc} {s : State} (h : s.rc = 0) :
    outcome d.req (countTick (prepareFirst d s)) = none := by
  unfold prepareFirst
  rw [if_pos h]
  cases d.req <;> simp [requestOp, prepare, countTick, outcome]

/-- The first tick of a descriptor prepares its fields, counts one, writes its frame and arms the timer. -/
theorem tickQueue_first {d : Desc} {rest : List Desc} {s : State} (h : s.rc = 0)
    (hb : 1 ≤ s.cfg.retryBudget) :
    tickQueue (d :: rest) s = { prepare (requestOp d.req) s with
      rc := 1, timerArmed := true, out := s.out ++ [.write (descFrame s.cfg d)] } := by
  simp only [tickQueue]
  rw [if_neg (by simp [h]; omega), outcome_prepareFirst h]
  simp [executeAndWait, execute, countTick, emit, prepareFirst, h]

/-- A tick on a queue whose counter has just been reset is the hand-over to what is left of it. -/
theorem tickQueue_popHead {rest : List Desc} {s : State} (hb : 1 ≤ s.cfg.retryBudget) :
    tickQueue rest (popHead rest s) = handOver rest s := by
  cases rest with
  | nil => rfl
  | cons d rest =>
    rw [tickQueue_first (s := popHead (d :: rest) s) rfl hb]
    cases hr : d.req <;> simp [handOver, popHead, prepare, requestOp, hr]

/-- The hand-over does not read the counter. -/
theorem handOver_countTick (rest : List Desc) (e : Event) (s : State) :
    handOver rest (emit e (countTick s)) = handOver rest { s with out := s.out ++ [e] } := by
  cases rest with
  | nil => rfl
  | cons d rest => cases hr : d.req <;> simp [handOver, prepare, requestOp, hr, emit, countTick]

/-- A later tick that finds the head within its budget and unfulfilled. -/
theorem tickQueue_retry {d : Desc} {rest : List Desc} {s : State} (h : s.rc ≠ 0)
    (hb : s.rc < s.cfg.retryBudget) (ho : outcome d.req s = none) :
    tickQueue (d :: rest) s = { s with
      rc := s.rc + 1, timerArmed := true, out := s.out ++ [.write (descFrame s.cfg d)] } := by
  have hc : outcome d.req (countTick s) = none := by
    rw [← ho]; cases d.req <;> rfl
  simp only [tickQueue, prepareFirst, h, if_false]
  rw [if_neg (by simp; omega), hc]
  rfl

/-- A later tick that finds the head within its budget and fulfilled. -/
theorem tickQueue_settle {d : Desc} {rest : List Desc} {s : State} {v : Value} (h : s.rc ≠ 0)
    (hb : s.rc < s.cfg.retryBudget) (ho : outcome d.req s = some v) :
    tickQueue (d :: rest) s =
      handOver rest { s with out := s.out ++ [.settle d.tag (.success v)] } := by
  have hc : outcome d.req (countTick s) = some v := by
    rw [← ho]; cases d.req <;> rfl
  simp only [tickQueue, prepareFirst, h, if_false]
  rw [if_neg (by simp; omega), hc]
  simp only
  rw [tickQueue_popHead (by simp; omega), handOver_countTick]

/-- A later tick that finds the budget spent (43_scheduler.md R247: before the predicate is read). -/
theorem tickQueue_exhaust {d : Desc} {rest : List Desc} {s : State} (h : s.rc ≠ 0)
    (hb : 1 ≤ s.cfg.retryBudget) (hr : s.cfg.retryBudget ≤ s.rc) :
    tickQueue (d :: rest) s =
      handOver rest { s with out := s.out ++ [.settle d.tag (.failure .commandExhausted)] } := by
  simp only [tickQueue, prepareFirst, h, if_false]
  rw [if_pos (by simp; omega), tickQueue_popHead (by simpa using hb)]
  exact handOver_countTick rest _ s

/-- What a tick may do to a state whatever its queue: the buffer, `closed`, the channel, the parameters
and the refusal marks stay, a sensor-observed field is kept or becomes PENDING, and the trace gains the
settlements of a leading part of the queue and at most one write. -/
structure Ticked (q : List Desc) (s t : State) : Prop where
  buf : t.buf = s.buf
  closed : t.closed = s.closed
  chan : t.chan = s.chan
  cfg : t.cfg = s.cfg
  refusals : t.refusals = s.refusals
  pm25 : keptOrPending s.pm25 t.pm25
  pm10 : keptOrPending s.pm10 t.pm10
  mode : keptOrPending s.mode t.mode
  sleeping : keptOrPending s.sleeping t.sleeping
  fw : keptOrPending s.fw t.fw
  period : keptOrPending s.period t.period
  out : ∃ k ws rs, k ≤ q.length ∧ (s.q = q → t.q = q.drop k) ∧ rs.length = k ∧
    t.out = s.out ++ (List.zipWith (fun d r => Event.settle d.tag r) q rs) ++ ws ∧
    (ws = [] ∨ ∃ f, ws = [.write f])

theorem keptOrPending.trans {α : Type} {a b c : Pend α} (h : keptOrPending a b)
    (k : keptOrPending b c) : keptOrPending a c := by
  rcases k with rfl | rfl
  · exact h
  · exact .inr rfl

/-- PREPARE keeps a field or makes it PENDING. -/
theorem prepareFirst_kept (d : Desc) (s : State) :
    keptOrPending s.pm25 (prepareFirst d s).pm25 ∧ keptOrPending s.pm10 (prepareFirst d s).pm10 ∧
    keptOrPending s.mode (prepareFirst d s).mode ∧
    keptOrPending s.sleeping (prepareFirst d s).sleeping ∧
    keptOrPending s.fw (prepareFirst d s).fw ∧ keptOrPending s.period (prepareFirst d s).period := by
  unfold prepareFirst
  split
  · cases requestOp d.req <;> simp [prepare, keptOrPending]
  · simp [keptOrPending]

theorem tickQueue_ticked (q : List Desc) (s : State) : Ticked q s (tickQueue q s) := by
  induction q generalizing s with
  | nil =>
    exact ⟨rfl, rfl, rfl, rfl, rfl, .inl rfl, .inl rfl, .inl rfl, .inl rfl, .inl rfl, .inl rfl,
      0, [], [], by simp, by simp [tickQueue], rfl, by simp [tickQueue], .inl rfl⟩
  | cons d rest ih =>
    have hp := prepareFirst_kept d s
    obtain ⟨h1, h2, h3, h4, h5, h6⟩ := hp
    have pop : ∀ r : Result,
        Ticked (d :: rest) s (tickQueue rest (popHead rest (emit (.settle d.tag r)
          (countTick (prepareFirst d s))))) := by
      intro r
      have h := ih (popHead rest (emit (.settle d.tag r) (countTick (prepareFirst d s))))
      obtain ⟨k, ws, rs, hk, hq, hr, ho, hw⟩ := h.out
      refine ⟨by simpa using h.buf, by simpa using h.closed, by simpa using h.chan,
        by simpa using h.cfg, by simpa using h.refusals, h1.trans h.pm25, h2.trans h.pm10, h3.trans h.mode,
        h4.trans h.sleeping, h5.trans h.fw, h6.trans h.period,
        k + 1, ws, r :: rs, by simp; omega, ?_, by simp [hr], ?_, hw⟩
      · intro _; simpa using hq rfl
      · rw [ho]; simp
    simp only [tickQueue]
    split
    · exact pop _
    · split
      · exact pop _
      · exact ⟨by simp, by simp, by simp, by simp, by simp, h1, h2, h3, h4, h5, h6,
          0, [.write (descFrame s.cfg d)], [], by simp, by simp, rfl, by simp, .inr ⟨_, rfl⟩⟩

theorem tick_ticked (s : State) : Ticked s.q s (tick s) := tickQueue_ticked s.q s

/-- What settling every dropped descriptor does: one event each, in queue order, and nothing else. -/
theorem failAll_eq (q : List Desc) (s : State) :
    failAll q s = { s with
      out := s.out ++ q.map (fun d => .settle d.tag (.failure .connectionClosed)) } := by
  induction q generalizing s with
  | nil => simp [failAll]
  | cons d rest ih => simp [failAll, ih, raise, emit, errorEvent]

end Sys2Proof.Machine
end

