-- ==== Sys2Proof/Laws/Step.lean ====
section
/-!
SUPPORT. What a call, an enqueue, an instruction and a step can do, said once: later proofs take these case
lists instead of unfolding the operations.
-/

namespace Sys2Proof.Machine

open Sys2Proof

/-- ENCODE's frame is the frame written out from the layout of 30_encoding.md R104. -/
theorem encodeCommand_eq (c : Config) (r : Request) (id : Option Half) :
    encodeCommand c r id = commandFrame c (typeModeArg c r).1 (typeModeArg c r).2.1
      (typeModeArg c r).2.2 (targetId c id) := by
  have h : ∀ v, outChecksum c r v = u8 ((typeModeArg c r).1.toNat + (typeModeArg c r).2.1.toNat +
      (typeModeArg c r).2.2.toNat + (hi8 v).toNat + (lo8 v).toNat) := by
    intro v; simp [outChecksum, checksum, outBody, List.replicate, Nat.add_assoc]
  simp [encodeCommand, h, commandFrame, outBody, List.replicate]

/-- A call is turned away with one InputError, or reaches ENQUEUE with a checked request and id (44_commands.md
R280). -/
theorem call_cases (tag : Token) (req : Except InputReason Request) (idstr : Option Text) (s : State) :
    (∃ e, call tag req idstr s = emit (.inputError tag e) s) ∨
    ∃ r id, req = .ok r ∧ parseId idstr = .ok id ∧
      call tag req idstr s = enqueue { req := r, id := id, tag := tag } s := by
  unfold call
  split
  · exact .inl ⟨_, rfl⟩
  · split
    · exact .inl ⟨_, rfl⟩
    · rename_i h
      exact .inr ⟨_, _, rfl, h, rfl⟩

/-- The four outcomes of an enqueue (43_scheduler.md R255, R256). -/
theorem enqueue_cases (d : Desc) (s : State) :
    (s.closed = true ∧
      (enqueue d s = s ∨ enqueue d s = emit (.settle d.tag (.failure .connectionClosed)) s)) ∨
    (s.closed = false ∧ s.sst = .processing ∧ enqueue d s = { s with q := s.q ++ [d] }) ∨
    (s.closed = false ∧ s.sst = .idle ∧
      enqueue d s = tick { s with q := s.q ++ [d], sst := .processing }) := by
  unfold enqueue
  split
  · rename_i h
    refine .inl ⟨h, ?_⟩
    cases s.cfg.closedEnqueue
    · exact .inl rfl
    · exact .inr rfl
  · rename_i h
    simp only [Bool.not_eq_true] at h
    right
    split
    · rename_i h'
      exact .inr ⟨h, h', rfl⟩
    · rename_i h'
      refine .inl ⟨h, ?_, rfl⟩
      cases hs : s.sst <;> simp_all

/-- A frame row does nothing, or is the timer's step, which then writes its frame (43_scheduler.md R249). -/
theorem writeFrame_cases (r : Request) (id : Half) (s : State) :
    writeFrame r id s = s ∨
    (s.timerArmed = true ∧ writeFrame r id s = fireTimer s ∧
      .write (encodeCommand s.cfg r (some id)) ∈ newEvents s (fireTimer s)) := by
  unfold writeFrame
  split
  · rename_i h
    simp only [timerWrites, Bool.and_eq_true, List.contains_iff_mem] at h
    exact .inr ⟨h.1, rfl, h.2⟩
  · exact .inl rfl

/-- A frame row is nothing while the timer is disarmed. -/
@[simp] theorem writeFrame_disarmed {r : Request} {id : Half} {s : State} (h : s.timerArmed = false) :
    writeFrame r id s = s := by
  simp [writeFrame, timerWrites, h]

/-- Everything an instruction that completes can be: a PUSH of some bytes, a tick, a CLOSE, a transport
error, a frame row, or a call whose accepted request lies in its range. -/
inductive Completed (i : Instr) (s t : State) : Prop where
  | pushed (b : List Byte) (hi : isInbound i = true) (ht : t = push b s)
  | ticked (hi : i = .timer) (ha : s.timerArmed = true) (ht : t = fireTimer s)
  | closed (hi : i = .close) (ht : t = closeBlock s)
  | passed (e : Token) (hi : i = .transportError e) (ht : t = emit (.transportError e) s)
  | written (r : Request) (id : Half) (ck : Byte) (hi : i = outOf r id ck)
      (ht : t = writeFrame r id s)
  | called (hq : isRequest i = true) (tag : Token) (req : Except InputReason Request) (idstr : Option Text)
      (hr : ∀ r, req = .ok r → requestOk s.cfg r) (hb : isInbound i = false) (hc : i ≠ .close)
      (he : ∀ e, i ≠ .transportError e) (ho : ∀ r id ck, i ≠ outOf r id ck)
      (ht : t = call tag req idstr s)

/-- A mode token that passes gives a request in range. -/
theorem modeOperand_ok (c : Config) (mtok : Byte) (r : Request) (h : modeOperand mtok = .ok r) :
    requestOk c r := by
  unfold modeOperand at h
  (repeat' split at h) <;> simp at h <;> subst h <;> trivial

/-- Minutes that pass give a request in range. -/
theorem periodOperand_ok (c : Config) (m : Int) (r : Request) (h : periodOperand c m = .ok r) :
    requestOk c r := by
  unfold periodOperand at h
  split at h <;> simp at h
  subst h
  rename_i hn
  have := Nat.mod_le m.toNat 256
  simp only [requestOk, u8_toNat]
  omega

/-- What an instruction that completes has done. -/
theorem exec_cases {i : Instr} {s t : State} (h : exec i s = .next t) : Completed i s t := by
  cases i with
  | push _ => injection h with h; exact .pushed _ rfl h.symm
  | inReading _ _ _ _ _ _ _ => injection h with h; exact .pushed _ rfl h.symm
  | inModeResp _ _ _ _ _ _ => injection h with h; exact .pushed _ rfl h.symm
  | inSleepResp _ _ _ _ _ _ => injection h with h; exact .pushed _ rfl h.symm
  | inFirmwareResp _ _ _ _ _ _ => injection h with h; exact .pushed _ rfl h.symm
  | inPeriodResp _ _ _ _ _ _ => injection h with h; exact .pushed _ rfl h.symm
  | timer =>
    simp only [exec, execTimer] at h
    split at h
    · rename_i ha
      injection h with h
      exact .ticked rfl ha h.symm
    · exact absurd h (by simp)
  | close => injection h with h; exact .closed rfl h.symm
  | transportError e => injection h with h; exact .passed e rfl h.symm
  | outQueryReading id ck => injection h with h; exact .written .queryReading id ck rfl h.symm
  | outSetMode m id ck => injection h with h; exact .written (.setMode m) id ck rfl h.symm
  | outGetMode id ck => injection h with h; exact .written .getMode id ck rfl h.symm
  | outSetSleep b id ck => injection h with h; exact .written (.setSleep b) id ck rfl h.symm
  | outGetFirmware id ck => injection h with h; exact .written .getFirmware id ck rfl h.symm
  | outSetPeriod p id ck => injection h with h; exact .written (.setPeriod p) id ck rfl h.symm
  | outGetPeriod id ck => injection h with h; exact .written .getPeriod id ck rfl h.symm
  | enqQueryReading tag idstr =>
    injection h with h
    exact .called rfl tag (.ok .queryReading) idstr (by rintro r ⟨⟩; trivial) rfl (by simp) (by simp)
      (by intro r; cases r <;> simp [outOf]) h.symm
  | enqSetMode tag mtok idstr =>
    injection h with h
    exact .called rfl tag (modeOperand mtok) idstr (modeOperand_ok _ _) rfl (by simp) (by simp)
      (by intro r; cases r <;> simp [outOf]) h.symm
  | enqGetMode tag idstr =>
    injection h with h
    exact .called rfl tag (.ok .getMode) idstr (by rintro r ⟨⟩; trivial) rfl (by simp) (by simp)
      (by intro r; cases r <;> simp [outOf]) h.symm
  | enqSetSleep tag b idstr =>
    injection h with h
    exact .called rfl tag (.ok (.setSleep b)) idstr (by rintro r ⟨⟩; trivial) rfl (by simp) (by simp)
      (by intro r; cases r <;> simp [outOf]) h.symm
  | enqGetFirmware tag idstr =>
    injection h with h
    exact .called rfl tag (.ok .getFirmware) idstr (by rintro r ⟨⟩; trivial) rfl (by simp) (by simp)
      (by intro r; cases r <;> simp [outOf]) h.symm
  | enqSetPeriod tag minutes idstr =>
    injection h with h
    exact .called rfl tag (periodOperand s.cfg minutes) idstr (periodOperand_ok _ _) rfl (by simp) (by simp)
      (by intro r; cases r <;> simp [outOf]) h.symm
  | enqGetPeriod tag idstr =>
    injection h with h
    exact .called rfl tag (.ok .getPeriod) idstr (by rintro r ⟨⟩; trivial) rfl (by simp) (by simp)
      (by intro r; cases r <;> simp [outOf]) h.symm

/-- What marking a refused instruction answers: the instruction's own next state, or the marked one. -/
theorem orTurnAway_cases {p : Packet} {s t : State} {o : Host.Outcome State Fault Refusal}
    (h : orTurnAway p s o = .next t) : o = .next t ∨ ∃ r, o = .refused r ∧ t = turnAway p r s := by
  cases o with
  | next u => exact .inl h
  | fault f => exact nomatch f
  | refused r => injection h with h; exact .inr ⟨r, rfl, h.symm⟩

/-- Taking the next packet changes the channel only. -/
theorem nextPacket_chan {s u : State} {p : Packet} (h : nextPacket s = some (p, u)) :
    u = { s with chan := s.chan.tail } := by
  unfold nextPacket at h
  split at h
  · rename_i hc
    simp only [Option.some.injEq, Prod.mk.injEq] at h
    rw [← h.2, hc]
    rfl
  · rename_i hc
    split at h
    · simp only [Option.some.injEq, Prod.mk.injEq] at h
      rw [hc, ← h.2, List.tail_nil, ← hc]
    · exact absurd h (by simp)

/-- A step with a packet waiting: its instruction's answer, or a mark, on the state without the packet. -/
theorem step_packet {s : State} {p : Packet} {rest : List Packet} (h : s.chan = p :: rest) :
    step s = match vetPacket s.cfg p with
      | .error r => .next (turnAway p r { s with chan := rest })
      | .ok i => orTurnAway p { s with chan := rest } (exec i { s with chan := rest }) := by
  have hn : nextPacket s = some (p, { s with chan := rest }) := by simp only [nextPacket, h]
  cases hv : vetPacket s.cfg p <;> simp only [step, hn, hv]

/-- A step that completes waits, or has taken the next packet and run its instruction or marked it. -/
theorem step_cases {s t : State} (h : step s = .next t) :
    t = s ∨ (∃ i, exec i { s with chan := s.chan.tail } = .next t) ∨
    ∃ p r, t = turnAway p r { s with chan := s.chan.tail } := by
  unfold step at h
  split at h
  · injection h with h
    exact .inl h.symm
  · rename_i p u hu
    obtain rfl := nextPacket_chan hu
    right
    split at h
    · injection h with h
      exact .inr ⟨p, _, h.symm⟩
    · rcases orTurnAway_cases h with h | ⟨r, -, h⟩
      · exact .inl ⟨_, h⟩
      · exact .inr ⟨p, r, h⟩

end Sys2Proof.Machine
end

