-- ==== Sys2Proof/Tests/Slice0.lean ====
section
/-!
SUPPORT. The model's own tests. Every expected value is written out from spec/95_test_vectors.md or from
the encoding tables of spec/30_encoding.md; the vector's name stands in each test's comment. After them,
for each obligation with hypotheses, a concrete witness that meets all of them together.
-/

namespace Sys2Proof.Tests

open Sys2Proof Sys2Proof.Machine

/-! ### Small states -/

/-- One GET_MODE command, tag 1, after its first tick (SC-1). -/
def waiting : State :=
  { State.reset with
    q := [{ req := .getMode, id := none, tag := 1 }], rc := 1, sst := .processing, timerArmed := true }

/-- The same with a GET_PERIOD command, tag 2, behind it (SC-2). -/
def waitingTwo : State :=
  { waiting with
    q := [{ req := .getMode, id := none, tag := 1 }, { req := .getPeriod, id := none, tag := 2 }] }

/-- One command of any kind for the sensor A160, after its first tick. -/
def waitingFor (r : Request) : State := { waiting with q := [{ req := r, id := some 0xA160, tag := 1 }] }

/-- The block after CLOSE from reset. -/
def shutDown : State := { State.reset with closed := true, out := [.transportClose] }

/-- The state an outcome holds. -/
def after (o : Host.Outcome State Fault Refusal) : Option State :=
  match o with
  | .next t => some t
  | .fault _ => none
  | .refused _ => none

/-- The trace an outcome's state has. -/
def trace (o : Host.Outcome State Fault Refusal) : Option (List Event) := (after o).map State.out

/-- The frame of vector S1. -/
def ex : List Byte := [0xAA, 0xC0, 0x4B, 0x00, 0x51, 0x00, 0xE9, 0x77, 0xFC, 0xAB]

/-! ### Well-formedness: one ill-formed term for each check -/

theorem test_wf_chunk_bound :
    Instr.wf { Config.default with maxChunk := some 2 } (.push [1, 2, 3]) = false ∧
    Instr.wf { Config.default with maxChunk := some 2 } (.push [1, 2]) = true ∧
    Instr.wf Config.default (.push [1, 2, 3]) = true := by decide

/-- The right checksums are those of EN-1, EN-2, EN-4, EN-5, EN-7, EN-10, EN-11 (broadcast). -/
theorem test_wf_outbound_checksums :
    Instr.wf Config.default (.outQueryReading 0xFFFF 0x02) = true ∧
    Instr.wf Config.default (.outQueryReading 0xFFFF 0x03) = false ∧
    Instr.wf Config.default (.outSetMode .query 0xFFFF 0x02) = true ∧
    Instr.wf Config.default (.outSetMode .query 0xFFFF 0x01) = false ∧
    Instr.wf Config.default (.outGetMode 0xFFFF 0x00) = true ∧
    Instr.wf Config.default (.outGetMode 0xFFFF 0x01) = false ∧
    Instr.wf Config.default (.outSetSleep true 0xFFFF 0x05) = true ∧
    Instr.wf Config.default (.outSetSleep true 0xFFFF 0x06) = false ∧
    Instr.wf Config.default (.outGetFirmware 0xFFFF 0x05) = true ∧
    Instr.wf Config.default (.outGetFirmware 0xFFFF 0x00) = false ∧
    Instr.wf Config.default (.outSetPeriod 0x1E 0xFFFF 0x25) = true ∧
    Instr.wf Config.default (.outSetPeriod 0x1E 0xFFFF 0x26) = false ∧
    Instr.wf Config.default (.outGetPeriod 0xFFFF 0x06) = true ∧
    Instr.wf Config.default (.outGetPeriod 0xFFFF 0x07) = false := by decide

/-- 31 minutes with the right checksum, 08 + 01 + 1F + FF + FF = 26. -/
theorem test_wf_outbound_period_range :
    Instr.wf Config.default (.outSetPeriod 0x1F 0xFFFF 0x26) = false := by decide

/-! ### Decoding: a word for every constructor, written out from its encoding -/

/-- The transaction codes of R120 with the operand lines of R121. -/
theorem test_decode_txn_core :
    decode Config.default [0x01] { chunk := [0xAA, 0x01] } = .ok (.push [0xAA, 0x01]) ∧
    decode Config.default [0x02] { tag := 9 } = .ok .timer ∧
    decode Config.default [0x03] {} = .ok .close ∧
    decode Config.default [0x04] { err := 7 } = .ok (.transportError 7) := by decide

theorem test_decode_txn_enq :
    decode Config.default [0x10] { tag := 3 } = .ok (.enqQueryReading 3 none) ∧
    decode Config.default [0x11] { tag := 3, mtok := 1 } = .ok (.enqSetMode 3 1 none) ∧
    decode Config.default [0x12] { tag := 3, idstr := some ['c', 'a', 'f', 'e'] } =
      .ok (.enqGetMode 3 (some ['c', 'a', 'f', 'e'])) ∧
    decode Config.default [0x13] { tag := 3, sleep := true } = .ok (.enqSetSleep 3 true none) ∧
    decode Config.default [0x14] { tag := 3 } = .ok (.enqGetFirmware 3 none) ∧
    decode Config.default [0x15] { tag := 3, minutes := -1 } = .ok (.enqSetPeriod 3 (-1) none) ∧
    decode Config.default [0x16] { tag := 3 } = .ok (.enqGetPeriod 3 none) := by decide

/-- EN-1, EN-2, EN-3, EN-4 with the ids FFFF, CAFE and A160. -/
theorem test_decode_out_query_and_mode :
    decode Config.default [0xAA, 0xB4, 0x04, 0x00, 0x00, 0, 0, 0, 0, 0, 0, 0, 0, 0, 0, 0xFF, 0xFF, 0x02, 0xAB] {} =
      .ok (.outQueryReading 0xFFFF 0x02) ∧
    decode Config.default [0xAA, 0xB4, 0x02, 0x01, 0x01, 0, 0, 0, 0, 0, 0, 0, 0, 0, 0, 0xCA, 0xFE, 0xCC, 0xAB] {} =
      .ok (.outSetMode .query 0xCAFE 0xCC) ∧
    decode Config.default [0xAA, 0xB4, 0x02, 0x01, 0x00, 0, 0, 0, 0, 0, 0, 0, 0, 0, 0, 0xA1, 0x60, 0x04, 0xAB] {} =
      .ok (.outSetMode .active 0xA160 0x04) ∧
    decode Config.default [0xAA, 0xB4, 0x02, 0x00, 0x00, 0, 0, 0, 0, 0, 0, 0, 0, 0, 0, 0xFF, 0xFF, 0x00, 0xAB] {} =
      .ok (.outGetMode 0xFFFF 0x00) := by decide

/-- EN-5, EN-6, EN-7, EN-10, EN-11. -/
theorem test_decode_out_power_firmware_period :
    decode Config.default [0xAA, 0xB4, 0x06, 0x01, 0x00, 0, 0, 0, 0, 0, 0, 0, 0, 0, 0, 0xFF, 0xFF, 0x05, 0xAB] {} =
      .ok (.outSetSleep true 0xFFFF 0x05) ∧
    decode Config.default [0xAA, 0xB4, 0x06, 0x01, 0x01, 0, 0, 0, 0, 0, 0, 0, 0, 0, 0, 0xCA, 0xFE, 0xD0, 0xAB] {} =
      .ok (.outSetSleep false 0xCAFE 0xD0) ∧
    decode Config.default [0xAA, 0xB4, 0x07, 0x00, 0x00, 0, 0, 0, 0, 0, 0, 0, 0, 0, 0, 0xCA, 0xFE, 0xCF, 0xAB] {} =
      .ok (.outGetFirmware 0xCAFE 0xCF) ∧
    decode Config.default [0xAA, 0xB4, 0x08, 0x01, 0x1E, 0, 0, 0, 0, 0, 0, 0, 0, 0, 0, 0xA1, 0x60, 0x28, 0xAB] {} =
      .ok (.outSetPeriod 0x1E 0xA160 0x28) ∧
    decode Config.default [0xAA, 0xB4, 0x08, 0x00, 0x00, 0, 0, 0, 0, 0, 0, 0, 0, 0, 0, 0xFF, 0xFF, 0x06, 0xAB] {} =
      .ok (.outGetPeriod 0xFFFF 0x06) := by decide

/-- CO-R1, CO-M1, CO-S1, CO-F1, CO-P1. -/
theorem test_decode_inbound :
    decode Config.default ex {} = .ok (.inReading 0x4B 0x00 0x51 0x00 0xE9 0x77 0xFC) ∧
    decode Config.default [0xAA, 0xC5, 0x02, 0x01, 0x01, 0x00, 0xA1, 0x60, 0x05, 0xAB] {} =
      .ok (.inModeResp 0x01 0x01 0x00 0xA1 0x60 0x05) ∧
    decode Config.default [0xAA, 0xC5, 0x06, 0x01, 0x00, 0x00, 0xA1, 0x60, 0x08, 0xAB] {} =
      .ok (.inSleepResp 0x01 0x00 0x00 0xA1 0x60 0x08) ∧
    decode Config.default [0xAA, 0xC5, 0x07, 0x0F, 0x07, 0x0A, 0xA1, 0x60, 0x28, 0xAB] {} =
      .ok (.inFirmwareResp 0x0F 0x07 0x0A 0xA1 0x60 0x28) ∧
    decode Config.default [0xAA, 0xC5, 0x08, 0x01, 0x03, 0x00, 0xA1, 0x60, 0x0D, 0xAB] {} =
      .ok (.inPeriodResp 0x01 0x03 0x00 0xA1 0x60 0x0D) := by decide

/-- No row: code 05 (R122), sender C1 (CO-E1), type FF (CO-E3), a query type with MODE_SET, a power type
with MODE_GET, a nonzero reserved byte, a mode argument 2, and a length no format has. -/
theorem test_decode_refuses :
    decode Config.default [0x05] {} = .error (.unknownCode 0x05) ∧
    decode Config.default [] {} = .error .emptyCode ∧
    decode Config.default [0xAA, 0xC1, 0x4B, 0x00, 0x51, 0x00, 0xE9, 0x77, 0xFC, 0xAB] {} = .error .unknownFrame ∧
    decode Config.default [0xAA, 0xC5, 0xFF, 0x00, 0x00, 0x00, 0x00, 0x00, 0xFF, 0xAB] {} = .error .unknownFrame ∧
    decode Config.default [0xAA, 0xB4, 0x04, 0x01, 0x00, 0, 0, 0, 0, 0, 0, 0, 0, 0, 0, 0xFF, 0xFF, 0x03, 0xAB] {} =
      .error .unknownFrame ∧
    decode Config.default [0xAA, 0xB4, 0x06, 0x00, 0x00, 0, 0, 0, 0, 0, 0, 0, 0, 0, 0, 0xFF, 0xFF, 0x04, 0xAB] {} =
      .error .unknownFrame ∧
    decode Config.default [0xAA, 0xB4, 0x04, 0x00, 0x00, 1, 0, 0, 0, 0, 0, 0, 0, 0, 0, 0xFF, 0xFF, 0x03, 0xAB] {} =
      .error .unknownFrame ∧
    decode Config.default [0xAA, 0xB4, 0x02, 0x01, 0x02, 0, 0, 0, 0, 0, 0, 0, 0, 0, 0, 0xFF, 0xFF, 0x03, 0xAB] {} =
      .error .unknownFrame ∧
    decode Config.default [0xAA, 0xC0] {} = .error (.badLength 2) := by decide

/-- The opcode table's bit numbering: byte 0 in bits 7 to 0, the next byte above it. -/
theorem test_table_word :
    decodeTableWord 8 0x12 = some (.enqGetMode 0 none) ∧
    decodeTableWord 8 0x7F = none ∧
    decodeTableWord 80 0xABFC77E90051004BC0AA =
      some (.inReading 0x4B 0x00 0x51 0x00 0xE9 0x77 0xFC) ∧
    decodeTableWord 152 0xABCFFECA00000000000000000000000007B4AA =
      some (.outGetFirmware 0xCAFE 0xCF) := by decide

/-- The first step after reset runs the placed instruction: a transaction, the timer, and a frame. -/
theorem test_fetch_word :
    step (State.reset.withFetchWord 8 0x03) = exec .close State.reset ∧
    step (State.reset.withFetchWord 8 0x02) = exec .timer { State.reset with timerArmed := true } ∧
    step (State.reset.withFetchWord 80 0xABFC77E90051004BC0AA) =
      exec (.inReading 0x4B 0x00 0x51 0x00 0xE9 0x77 0xFC) State.reset := ⟨rfl, rfl, rfl⟩

/-- A code no row has. -/
def unknownPacket : Packet := { issuer := .host, code := [0x05] }

/-- A TIMER the host issues. -/
def hostTimer : Packet := { issuer := .host, code := [0x02] }

/-- A CLOSE. -/
def closePacket : Packet := { issuer := .host, code := [0x03] }

/-- R369 (c), R122: a code outside the table is marked and changes nothing else, and the packet behind it is
next. -/
theorem test_unknown_code_is_marked :
    step { waiting with chan := [unknownPacket, closePacket] } =
      .next { waiting with
        chan := [closePacket], refusals := [⟨unknownPacket, .undecodable (.unknownCode 0x05)⟩] } := rfl

/-- R369 (c), R122: so is a TIMER from the host, armed or not; and SC-19: a TIMER while disarmed is refused
and the block stays unchanged. -/
theorem test_refused_timer_is_marked :
    step { waiting with chan := [hostTimer] } =
      .next { waiting with refusals := [⟨hostTimer, .wrongIssuer⟩] } ∧
    step { State.reset with chan := [timerPacket] } =
      .next { State.reset with refusals := [⟨timerPacket, .timerDisarmed⟩] } := ⟨rfl, rfl⟩

/-! ### One step each -/

/-- S1. -/
theorem test_push_valid_frame :
    (after (exec (.push ex) State.reset)).map (fun t => (t.buf, t.pm25, t.pm10, t.out)) =
      some ([], .val 75, .val 81, [.data ex, .message (.reading 75 81), .reading 75 81]) := by decide

/-- FR-7: the eleven-byte discard loses the frame. -/
theorem test_push_corrupt_discard :
    (after (exec (.push ([0xAA, 0x01, 0x02, 0x03, 0x04] ++ ex)) State.reset)).map State.buf =
      some [0xE9, 0x77, 0xFC, 0xAB] := by decide

/-- FR-C7c and FR-21, FR-22: the same bytes in other chunks, each with its own end (C7, R377). -/
theorem test_push_splits_matter :
    (pushAll ((0xAA :: ex).map (fun b => [b])) State.reset).buf = [0xAB] ∧
    (pushAll [[0xAA, 1, 2, 3, 4, 5, 6, 7, 8, 9], ex] State.reset).pm25 = .val 75 ∧
    (pushAll [[0xAA, 1, 2, 3, 4, 5, 6, 7, 8, 9] ++ ex] State.reset).buf =
      [0xC0, 0x4B, 0x00, 0x51, 0x00, 0xE9, 0x77, 0xFC, 0xAB] := by decide

/-- SC-4's settlement: the firmware text, and the hand-over to the next command in the same tick. -/
theorem test_timer_settles_and_hands_over :
    (after (exec .timer { waiting with
      q := [{ req := .getFirmware, id := none, tag := 1 }, { req := .getMode, id := none, tag := 2 }],
      mode := .val .active, fw := .val { year := 15, month := 7, day := 10 } })).map
        (fun t => (t.q.length, t.rc, t.timerArmed, t.mode, t.out)) =
      some (1, 1, true, .pending, [.settle 1 (.success (.firmware ['1', '5', '-', '0', '7', '-', '1', '0'])),
        .write [0xAA, 0xB4, 0x02, 0, 0, 0, 0, 0, 0, 0, 0, 0, 0, 0, 0, 0xFF, 0xFF, 0x00, 0xAB]]) := by decide

/-- SC-16: after ten writes the budget test comes first, although the mode has arrived. -/
theorem test_timer_exhausts_before_reading_the_mode :
    (after (exec .timer { waiting with rc := 10, mode := .val .active })).map
        (fun t => (t.q.length, t.rc, t.timerArmed, t.mode, t.out)) =
      some (0, 0, false, .val .active, [.settle 1 (.failure .commandExhausted)]) := by decide

/-- SC-19. -/
theorem test_timer_disarmed : exec .timer State.reset = .refused .timerDisarmed := by rfl

/-- ER-11: the dropped commands settle in order, then the transport closes. -/
theorem test_close_fail_closed :
    (after (exec .close { waitingTwo with
      buf := [0xAA], cfg := { Config.default with teardown := .failClosed } })).map
        (fun t => (t.closed, t.q, t.buf, t.timerArmed, t.out)) =
      some (true, [], [], false, [.settle 1 (.failure .connectionClosed),
        .settle 2 (.failure .connectionClosed), .transportClose]) := by decide

/-- ER-12. -/
theorem test_close_again :
    trace (exec .close shutDown) = some [.transportClose, .notice .alreadyClosed] := by decide

/-- ER-13. -/
theorem test_transport_error_after_close :
    trace (exec (.transportError 1) shutDown) = some [.transportClose, .transportError 1] := by decide

/-- EN-1 and R220. -/
theorem test_enq_query_reading :
    (after (exec (.enqQueryReading 1 none) { State.reset with pm25 := .val 75, pm10 := .val 81 })).map
        (fun t => (t.pm25, t.pm10, t.rc, t.out)) = some (.pending, .pending, 1,
      [.write [0xAA, 0xB4, 0x04, 0, 0, 0, 0, 0, 0, 0, 0, 0, 0, 0, 0, 0xFF, 0xFF, 0x02, 0xAB]]) := by decide

/-- EN-2 with the id cafe. -/
theorem test_enq_set_mode :
    trace (exec (.enqSetMode 1 1 (some ['c', 'a', 'f', 'e'])) State.reset) =
      some [.write [0xAA, 0xB4, 0x02, 1, 1, 0, 0, 0, 0, 0, 0, 0, 0, 0, 0, 0xCA, 0xFE, 0xCC, 0xAB]] := by decide

/-- ER-6: the operand is checked before the id. -/
theorem test_enq_set_mode_invalid :
    trace (exec (.enqSetMode 1 5 (some ['z', 'z'])) State.reset) = some [.inputError 1 .invalidMode] := by
  decide

/-- SC-2: a command behind another only joins the queue. -/
theorem test_enq_get_mode_behind :
    (after (exec (.enqGetMode 2 none) waiting)).map (fun t => (t.q.length, t.rc, t.out)) =
      some (2, 1, []) := by decide

/-- EN-5: sleep is argument 0 (D34). -/
theorem test_enq_set_sleep :
    trace (exec (.enqSetSleep 1 true none) State.reset) =
      some [.write [0xAA, 0xB4, 0x06, 1, 0, 0, 0, 0, 0, 0, 0, 0, 0, 0, 0, 0xFF, 0xFF, 0x05, 0xAB]] := by decide

/-- EN-7 with the id cafe. -/
theorem test_enq_get_firmware :
    trace (exec (.enqGetFirmware 1 (some ['c', 'a', 'f', 'e'])) State.reset) =
      some [.write [0xAA, 0xB4, 0x07, 0, 0, 0, 0, 0, 0, 0, 0, 0, 0, 0, 0, 0xCA, 0xFE, 0xCF, 0xAB]] := by decide

/-- SC-11 and EN-10. -/
theorem test_enq_set_period :
    trace (exec (.enqSetPeriod 1 0 (some ['a', '1', '6', '0'])) State.reset) =
      some [.write [0xAA, 0xB4, 0x08, 1, 0, 0, 0, 0, 0, 0, 0, 0, 0, 0, 0, 0xA1, 0x60, 0x0A, 0xAB]] ∧
    trace (exec (.enqSetPeriod 1 30 none) State.reset) =
      some [.write [0xAA, 0xB4, 0x08, 1, 30, 0, 0, 0, 0, 0, 0, 0, 0, 0, 0, 0xFF, 0xFF, 0x25, 0xAB]] := by decide

/-- ER-1, ER-2, ER-7: out of range, also when closed. -/
theorem test_enq_set_period_out_of_range :
    trace (exec (.enqSetPeriod 1 31 none) State.reset) = some [.inputError 1 .periodOutOfRange] ∧
    trace (exec (.enqSetPeriod 1 (-1) none) State.reset) = some [.inputError 1 .periodOutOfRange] ∧
    trace (exec (.enqSetPeriod 1 99 none) shutDown) =
      some [.transportClose, .inputError 1 .periodOutOfRange] := by decide

/-- EN-11; ER-9 under the other policy. -/
theorem test_enq_get_period :
    trace (exec (.enqGetPeriod 1 none) State.reset) =
      some [.write [0xAA, 0xB4, 0x08, 0, 0, 0, 0, 0, 0, 0, 0, 0, 0, 0, 0, 0xFF, 0xFF, 0x06, 0xAB]] ∧
    trace (exec (.enqGetPeriod 1 none) { shutDown with
      cfg := { Config.default with closedEnqueue := .failClosed } }) =
      some [.transportClose, .settle 1 (.failure .connectionClosed)] := by decide

/-- From reset no outbound frame row writes (R361). -/
theorem test_out_from_reset :
    trace (exec (.outQueryReading 0xFFFF 0x02) State.reset) = some [] ∧
    trace (exec (.outSetPeriod 1 0xA160 0x0B) State.reset) = some [] := by decide

/-- EN-1, EN-3, EN-4 with the id a160: the retry of such a command writes its frame; the row of another
frame writes nothing. -/
theorem test_out_query_and_mode :
    trace (exec (.outQueryReading 0xA160 0x05) (waitingFor .queryReading)) =
      some [.write [0xAA, 0xB4, 0x04, 0, 0, 0, 0, 0, 0, 0, 0, 0, 0, 0, 0, 0xA1, 0x60, 0x05, 0xAB]] ∧
    trace (exec (.outSetMode .active 0xA160 0x04) (waitingFor (.setMode .active))) =
      some [.write [0xAA, 0xB4, 0x02, 1, 0, 0, 0, 0, 0, 0, 0, 0, 0, 0, 0, 0xA1, 0x60, 0x04, 0xAB]] ∧
    trace (exec (.outGetMode 0xA160 0x03) (waitingFor .getMode)) =
      some [.write [0xAA, 0xB4, 0x02, 0, 0, 0, 0, 0, 0, 0, 0, 0, 0, 0, 0, 0xA1, 0x60, 0x03, 0xAB]] ∧
    trace (exec (.outGetMode 0xA160 0x03) (waitingFor .getPeriod)) = some [] := by decide

/-- EN-6, EN-7, EN-9, EN-11, with the id a160. -/
theorem test_out_power_firmware_period :
    trace (exec (.outSetSleep false 0xA160 0x09) (waitingFor (.setSleep false))) =
      some [.write [0xAA, 0xB4, 0x06, 1, 1, 0, 0, 0, 0, 0, 0, 0, 0, 0, 0, 0xA1, 0x60, 0x09, 0xAB]] ∧
    trace (exec (.outGetFirmware 0xA160 0x08) (waitingFor .getFirmware)) =
      some [.write [0xAA, 0xB4, 0x07, 0, 0, 0, 0, 0, 0, 0, 0, 0, 0, 0, 0, 0xA1, 0x60, 0x08, 0xAB]] ∧
    trace (exec (.outSetPeriod 1 0xA160 0x0B) (waitingFor (.setPeriod 1))) =
      some [.write [0xAA, 0xB4, 0x08, 1, 1, 0, 0, 0, 0, 0, 0, 0, 0, 0, 0, 0xA1, 0x60, 0x0B, 0xAB]] ∧
    trace (exec (.outGetPeriod 0xA160 0x09) (waitingFor .getPeriod)) =
      some [.write [0xAA, 0xB4, 0x08, 0, 0, 0, 0, 0, 0, 0, 0, 0, 0, 0, 0, 0xA1, 0x60, 0x09, 0xAB]] := by decide

/-- After the budget's ten writes no row writes the head's frame again (R251). -/
theorem test_out_beyond_the_budget :
    trace (exec (.outGetMode 0xA160 0x03) { waitingFor .getMode with rc := 10 }) = some [] := by decide

/-- CO-R2: a zero count updates the state and raises no Reading event. -/
theorem test_in_reading_zero :
    (after (exec (.inReading 0x00 0x00 0x51 0x00 0x00 0x00 0x51) State.reset)).map
        (fun t => (t.pm25, t.pm10, t.out.drop 1)) =
      some (.val 0, .val 81, [.message (.reading 0 81)]) := by decide

/-- CO-R6: little-endian, and marker values inside the data. -/
theorem test_in_reading_little_endian :
    (after (exec (.inReading 0xAA 0xAB 0x51 0x00 0x00 0x00 0xA6) State.reset)).map
        (fun t => (t.pm25, t.out.drop 1)) =
      some (.val 43946, [.message (.reading 43946 81), .reading 43946 81]) := by decide

/-- CO-M5 and CO-M3: any nonzero D2 is query, and D1 is not read. -/
theorem test_in_mode_resp :
    (after (exec (.inModeResp 0x01 0x07 0x00 0xA1 0x60 0x0B) State.reset)).map State.mode =
      some (.val .query) ∧
    (after (exec (.inModeResp 0x00 0x00 0x00 0xA1 0x60 0x03) State.reset)).map State.mode =
      some (.val .active) := by decide

/-- CO-S1 and CO-S2: a zero value byte means sleeping. -/
theorem test_in_sleep_resp :
    (after (exec (.inSleepResp 0x01 0x00 0x00 0xA1 0x60 0x08) State.reset)).map State.sleeping =
      some (.val true) ∧
    (after (exec (.inSleepResp 0x01 0x01 0x00 0xA1 0x60 0x09) State.reset)).map State.sleeping =
      some (.val false) := by decide

/-- CO-F2, with its rendering. -/
theorem test_in_firmware_resp :
    (after (exec (.inFirmwareResp 0xC8 0x0C 0x1F 0xA1 0x60 0xFB) State.reset)).map State.fw =
      some (.val { year := 200, month := 12, day := 31 }) ∧
    renderFw { year := 200, month := 12, day := 31 } =
      ['2', '0', '0', '-', '1', '2', '-', '3', '1'] := by decide

/-- CO-P4: a byte above PERIOD_MAX is stored unchanged. -/
theorem test_in_period_resp :
    (after (exec (.inPeriodResp 0x00 0x1F 0x00 0xA1 0x60 0x28) State.reset)).map State.period =
      some (.val 31) := by decide

/-- ID-2, ID-3, ID-5, ID-6. -/
theorem test_parse_id :
    parseId (some ['c', 'a', 'f', 'e']) = .ok (some 0xCAFE) ∧
    parseId (some ['C', 'a', 'F', 'e']) = .ok (some 0xCAFE) ∧
    parseId (some ['c', 'a', 'f']) = .error .malformedId ∧
    parseId (some ['z', 'z', '0', '0']) = .error .malformedId := ⟨by rfl, by rfl, by rfl, by rfl⟩

/-- SC-7 and SC-8: the order of PUSH and TIMER decides whether the command is written once or twice. -/
theorem test_order_decides_the_writes :
    (after (exec .timer { waiting with
      q := [{ req := .setSleep false, id := none, tag := 5 }], sleeping := .val false })).map
        (fun t => t.out.countP isWrite) = some 0 ∧
    (after (exec .timer { waiting with
      q := [{ req := .setSleep false, id := none, tag := 5 }] })).map
        (fun t => t.out.countP isWrite) = some 1 := by decide

/-- R51 by hand: mode QUERY reads 3, one armed command reads 3 in register 7. -/
theorem test_register_view :
    readReg { waiting with mode := .val .query, pm25 := .val 75 } 2 = some 3 ∧
    readReg { waiting with mode := .val .query, pm25 := .val 75 } 0 = some 0x1004B ∧
    readReg waiting 7 = some 3 ∧ readReg waiting 10 = none := by decide

/-- The code table of R321. -/
theorem test_error_codes :
    [ErrorReport.message [] .invalidFrame, .message [] .unknownSender, .message [] .unknownCommand,
      .failure 0 .commandExhausted, .input 0 .invalidMode, .input 0 .periodOutOfRange,
      .input 0 .malformedId, .failure 0 .connectionClosed, .notice .alreadyClosed,
      .transport 0].map errorCode = [1, 2, 3, 4, 5, 6, 7, 8, 9, 10] := by decide

/-! ### Witnesses: every obligation with hypotheses can be met -/

theorem witness_config : Config.default.Ok ∧ Config.default.CodesDistinct := by decide

theorem reset_inv : State.reset.Inv :=
  ⟨by decide, by decide, by decide, by decide, by decide, by decide, by simp [State.reset], by decide⟩

theorem waiting_inv : waiting.Inv :=
  ⟨by decide, by decide, by decide, by decide, by decide, by decide,
    by simp [waiting, requestOk], by decide⟩

theorem waitingTwo_inv : waitingTwo.Inv :=
  ⟨by decide, by decide, by decide, by decide, by decide, by decide,
    by simp [waitingTwo, requestOk], by decide⟩

theorem shutDown_inv : shutDown.Inv :=
  ⟨by decide, by decide, by decide, by decide, by decide, by decide,
    by simp [shutDown, State.reset], by decide⟩

theorem witness_AcceptedCodeIsTheEncoding :
    decode Config.default [0x15] { minutes := 31 } = .ok (.enqSetPeriod 0 31 none) := by decide

/-- A packet the host issues, its issuer right. -/
def getModePacket : Packet := { issuer := .host, code := [0x12], ops := { tag := 4 } }

/-- One packet that runs, and one whose meaning is refused. -/
theorem witness_StepRunsTheDecodedInstruction :
    (decode Config.default getModePacket.code getModePacket.ops = .ok (.enqGetMode 4 none) ∧
      getModePacket.issuer = Instr.issuer (.enqGetMode 4 none) ∧
      ∃ t, exec (.enqGetMode 4 none) State.reset = .next t) ∧
    (decode Config.default timerPacket.code timerPacket.ops = .ok .timer ∧
      timerPacket.issuer = Instr.issuer .timer ∧
      exec .timer State.reset = .refused .timerDisarmed) :=
  ⟨⟨by decide, rfl, _, rfl⟩, by decide, rfl, rfl⟩

theorem witness_EmptyChannelFiresTheTimerOrWaits :
    (waiting.chan = [] ∧ waiting.timerArmed = true) ∧
    (State.reset.chan = [] ∧ State.reset.timerArmed = false) := by decide

/-- The codes next to the table's two runs and at the ends of the byte, and codes of no format. -/
theorem witness_UnknownTransactionCodesAreRefused :
    (∀ tc ∈ ([0x00, 0x05, 0x0F, 0x17, 0xFF] : List Byte),
      tc ∉ ([0x01, 0x02, 0x03, 0x04, 0x10, 0x11, 0x12, 0x13, 0x14, 0x15, 0x16] : List Byte)) ∧
    decode Config.default [] {} = .error .emptyCode ∧
    decode Config.default [0x01, 0x02] {} = .error (.badLength 2) := by decide

theorem witness_OnlyTheProperIssuerIsServed :
    decode waiting.cfg hostTimer.code hostTimer.ops = .ok .timer ∧
    hostTimer.issuer ≠ Instr.issuer .timer := by decide

theorem witness_StepKeepsTheInvariant :
    State.reset.Inv ∧ (after (step { State.reset with chan := [getModePacket] })).isSome = true :=
  ⟨reset_inv, by decide⟩

theorem witness_TraceOnlyGrowsAndParametersStay :
    ∃ t, step { State.reset with chan := [getModePacket] } = .next t ∧ t.out ≠ [] :=
  ⟨_, rfl, by decide⟩

theorem witness_ClosedForGood :
    shutDown.Inv ∧ shutDown.closed = true ∧
    ∃ t, step { shutDown with chan := [{ issuer := .host, code := [0x03] }] } = .next t :=
  ⟨shutDown_inv, rfl, _, rfl⟩

theorem witness_OnlyDecodingWritesValues :
    isInbound (.enqGetMode 1 none) = false ∧ ∃ t, exec (.enqGetMode 1 none) State.reset = .next t :=
  ⟨rfl, _, rfl⟩

theorem witness_DecodePathLeavesTheScheduler :
    isInbound (.push ex) = true ∧ isInbound (.inModeResp 1 7 0 0xA1 0x60 0x0B) = true ∧
    shutDown.closed = true ∧ State.reset.closed = false := by decide

theorem witness_WhatInstructionsLeaveAlone :
    (∃ t, exec .close State.reset = .next t) ∧ (∃ t, exec (.push ex) State.reset = .next t) ∧
    (∃ t, exec (.transportError 1) State.reset = .next t) ∧
    (∃ t, exec (outOf (.setPeriod 30) 0xFFFF 0x25) State.reset = .next t) ∧
    (∃ t, exec .timer waiting = .next t) :=
  ⟨⟨_, rfl⟩, ⟨_, rfl⟩, ⟨_, rfl⟩, ⟨_, rfl⟩, ⟨_, rfl⟩⟩

/-- CK-1 and CK-5: the last index inside, and the first one outside. -/
theorem witness_ChecksumIsTheSumModulo256 :
    9 < ex.length ∧ checksum ex 2 7 = some 0xFC ∧ ex.length ≤ 10 ∧ checksum (ex.take 5) 2 7 = none := by
  decide

/-- S3: byte 2 changed from 4B to 4C gives FD; bytes 2 to 7 permuted still give FC. -/
theorem witness_ChecksumDependsOnItsRangeOnly :
    checksum (ex.set 2 0x4C) 2 7 = some 0xFD ∧ (ex.set 2 0x4C).length = ex.length ∧
    (∀ i < 10, i ≠ 2 → byteAt ex i = byteAt (ex.set 2 0x4C) i) ∧
    byteAt ex 2 ≠ byteAt (ex.set 2 0x4C) 2 ∧
    ([0x4B, 0x00, 0x51, 0x00, 0xE9, 0x77] : List Byte).Perm [0x77, 0xE9, 0x00, 0x51, 0x00, 0x4B] := by
  decide

/-- VA-1 and VA-7, and a configuration response. -/
theorem witness_DecodingDispatchesOnTheSender :
    (validate Config.default ex = true ∧ byteAt ex 1 = 0xC0) ∧
    (validate Config.default [0xAA, 0xC5, 2, 1, 1, 0, 0xA1, 0x60, 5, 0xAB] = true) ∧
    (validate Config.default [0xAA, 0xC1, 0x4B, 0x00, 0x51, 0x00, 0xE9, 0x77, 0xFC, 0xAB] = true) := by decide

theorem witness_FramesTellCommandsApart :
    encodeCommand Config.default .getMode none = encodeCommand Config.default .getMode (some 0xFFFF) := by
  decide

/-- A buffer for each of the five cases: FR-1, FR-10, FR-8, FR-5 and FR-6, S1. -/
theorem witness_IterationCases :
    (0xAA ∉ ([1, 2, 3, 4, 5, 6, 7, 8, 9, 0x10, 0x11] : List Byte)) ∧
    ([0x10, 0x20, 0xAB] ++ ex = [0x10, 0x20, 0xAB] ++ 0xAA :: ex.tail ∧
      0xAA ∉ ([0x10, 0x20, 0xAB] : List Byte)) ∧
    (0xAB ∉ ([0xAA, 1, 2, 3, 4, 5, 6, 7, 8, 9] : List Byte).drop 9) ∧
    (0xAB ∈ ([0xAA, 1, 2, 3, 4, 5, 6, 7, 8, 9, 0xAB, 0x11] : List Byte).drop 10 ∧
      byteAt [0xAA, 1, 2, 3, 4, 5, 6, 7, 8, 9, 0xAB, 0x11] 9 ≠ 0xAB) ∧
    (byteAt ex 0 = 0xAA ∧ byteAt ex 9 = 0xAB) := by decide

/-- S2's candidate. -/
def bad : List Byte := ex.set 4 0x50

theorem witness_InvalidCandidatesAreReported :
    10 ≤ bad.length ∧ byteAt bad 0 = 0xAA ∧ byteAt bad 9 = 0xAB ∧
    validate Config.default (bad.take 10) = false := by decide

theorem witness_Push :
    State.reset.cfg.Ok ∧ State.reset.cfg.inLen = 10 ∧ State.reset.closed = false ∧ State.reset.buf = [] ∧
    (State.reset.buf ++ ex.take 9).length < 10 ∧ validate State.reset.cfg ex = true := by decide

/-- CO-R1 decodes, CO-E1 does not. -/
theorem witness_PushOfOneValidFrame :
    decodeFrame Config.default ex = .ok (.reading 75 81) ∧
    validate Config.default (ex.set 1 0xC1) = true ∧
    decodeFrame Config.default (ex.set 1 0xC1) = .error .unknownSender := by decide

theorem witness_InvalidFrameMeansChecksumMismatch :
    ∃ t, exec (.push bad) State.reset = .next t ∧
      .messageError bad .invalidFrame ∈ newEvents State.reset t := ⟨_, rfl, by decide⟩

/-- FR-14. -/
theorem witness_ResynchronizesUnderEverySplit :
    ([[0x01, 0xAB, 0xFF], ex.take 5, ex.drop 5] : List (List Byte)).flatten = [0x01, 0xAB, 0xFF] ++ ex ∧
    0xAA ∉ ([0x01, 0xAB, 0xFF] : List Byte) ∧ validate Config.default ex = true := by decide

theorem witness_DuplicatesAreDecodedAgain : ∃ t, exec (.push ex) State.reset = .next t := ⟨_, rfl⟩

/-- CO-M1 and CO-S1. -/
theorem witness_ModeAndSleepResponsesWriteTheirField :
    validate Config.default [0xAA, 0xC5, 2, 1, 1, 0, 0xA1, 0x60, 5, 0xAB] = true ∧
    validate Config.default [0xAA, 0xC5, 6, 1, 0, 0, 0xA1, 0x60, 8, 0xAB] = true := by decide

/-- CO-E1 and CO-E2. -/
theorem witness_UndecodableFramesAreReported :
    validate Config.default (ex.set 1 0xC1) = true ∧
    validate Config.default [0xAA, 0xC5, 4, 0, 0, 0, 0xA1, 0x60, 5, 0xAB] = true ∧
    (4 : Byte) ∉ [Config.default.cmdMode, Config.default.cmdPower, Config.default.cmdFirmware,
      Config.default.cmdPeriod] := by decide

/-- The checksum conditions of the inbound rows: S1 and S2, and CO-M1, CO-S1, CO-F1, CO-P1 with their
checksum bytes and with others. -/
theorem witness_InboundChecksums :
    (0xFC : Nat) = (0x4B + 0x00 + 0x51 + 0x00 + 0xE9 + 0x77) % 256 ∧
    (0xFC : Nat) ≠ (0x4B + 0x00 + 0x50 + 0x00 + 0xE9 + 0x77) % 256 ∧
    (0x05 : Nat) = (2 + 1 + 1 + 0 + 0xA1 + 0x60) % 256 ∧ (0x08 : Nat) = (6 + 1 + 0 + 0 + 0xA1 + 0x60) % 256 ∧
    (0x28 : Nat) = (7 + 15 + 7 + 10 + 0xA1 + 0x60) % 256 ∧
    (0x0D : Nat) = (8 + 1 + 3 + 0 + 0xA1 + 0x60) % 256 ∧
    (0 : Nat) ≠ (2 + 1 + 1 + 0 + 0xA1 + 0x60) % 256 := by decide

theorem witness_RegisterViewReadsTheState : waitingTwo.Inv := waitingTwo_inv

theorem reset_idle : IdleOpen State.reset := ⟨rfl, rfl, rfl, rfl, by decide⟩

/-- Both ends of the mode token's and the minutes' ranges, with no id and with one. -/
theorem witness_EnqueueRunsItsFirstTick :
    IdleOpen State.reset ∧ parseId none = .ok none ∧
    parseId (some ['c', 'a', 'f', 'e']) = .ok (some 0xCAFE) ∧
    (0 : Byte).toNat ≤ 1 ∧ (1 : Byte).toNat ≤ 1 ∧
    (0 : Int) ≤ State.reset.cfg.periodMax ∧ (30 : Int) ≤ State.reset.cfg.periodMax :=
  ⟨reset_idle, rfl, rfl, by decide, by decide, by decide, by decide⟩

theorem witness_EnqueueBehindOthersOnlyAppends :
    requestOk waiting.cfg (.setPeriod 30) ∧ waiting.closed = false ∧ waiting.sst = .processing ∧
    parseId none = .ok none := ⟨by simp only [requestOk]; decide, rfl, rfl, rfl⟩

theorem witness_EnqueueAfterCloseFollowsThePolicy :
    requestOk shutDown.cfg .getMode ∧ shutDown.closed = true ∧ parseId none = .ok none :=
  ⟨trivial, rfl, rfl⟩

/-- The values next to the two ranges, and ER-5's id. -/
theorem witness_InputErrorsChangeNothingElse :
    (2 : Byte) ≠ 0 ∧ (2 : Byte) ≠ 1 ∧ (-1 : Int) < 0 ∧ ((State.reset.cfg.periodMax : Nat) : Int) < 31 ∧
    parseId (some ['c', 'a', 'f']) = .error .malformedId ∧ requestOk State.reset.cfg .getMode :=
  ⟨by decide, by decide, by decide, by decide, rfl, trivial⟩

/-- An armed and a disarmed timer, a TIMER packet of the block on the channel and one of the host. -/
theorem witness_TimerIsEnabledIffArmed :
    waiting.timerArmed = true ∧ State.reset.timerArmed = false ∧ shutDown.Inv ∧ shutDown.closed = true ∧
    ({ waiting with chan := [timerPacket] } : State).chan = timerPacket :: [] ∧
    timerPacket.code = [0x02] ∧ timerPacket.issuer = .block ∧
    hostTimer.code = [0x02] ∧ hostTimer.issuer ≠ .block :=
  ⟨rfl, rfl, shutDown_inv, rfl, rfl, rfl, rfl, rfl, by decide⟩

/-- The counter at both ends of the retrying range, 1 and 9 of 10. -/
theorem witness_TimerRetriesAnUnfulfilledHead :
    waiting.timerArmed = true ∧ (1 ≤ waiting.rc ∧ waiting.rc < waiting.cfg.retryBudget) ∧
    outcome .getMode waiting = none ∧ outcome .getMode { waiting with rc := 9 } = none ∧
    9 < waiting.cfg.retryBudget := by decide

theorem witness_TimerSettlesAFulfilledHead :
    outcome .getMode { waiting with mode := .val .query } = some (.mode .query) ∧
    (1 ≤ waiting.rc ∧ waiting.rc < waiting.cfg.retryBudget) ∧ waiting.timerArmed = true := by decide

theorem witness_TimerExhaustsTheHead :
    1 ≤ waiting.cfg.retryBudget ∧ waiting.cfg.retryBudget ≤ 10 ∧ waiting.timerArmed = true := by decide

theorem witness_ExactlyTheBudgetOfWrites :
    waitingTwo.chan = [] ∧ waitingTwo.timerArmed = true ∧ waitingTwo.rc = 1 ∧
    1 ≤ waitingTwo.cfg.retryBudget ∧ outcome .getMode waitingTwo = none := by decide

theorem witness_AtMostOneWriteEach :
    (∃ t, exec .timer waiting = .next t ∧ t.out.countP isWrite = 1) ∧
    (State.reset.Inv ∧ State.reset.sst = .idle ∧
      ∃ t, exec (.enqGetMode 1 none) State.reset = .next t ∧ t.out.countP isWrite = 1) :=
  ⟨⟨_, rfl, by decide⟩, reset_inv, rfl, _, rfl, by decide⟩

theorem witness_SettlesInQueueOrder :
    ∃ t, exec .timer { waitingTwo with mode := .val .query } = .next t ∧
      settledTags t.out = [1] := ⟨_, rfl, by decide⟩

theorem witness_QuiescentWithinTheBudget : waitingTwo.Inv ∧ waitingTwo.chan = [] ∧ waitingTwo.q ≠ [] :=
  ⟨waitingTwo_inv, rfl, by decide⟩

theorem witness_Close : waitingTwo.closed = false ∧ shutDown.closed = true := by decide

/-- A timer step that writes the row's frame, one that writes another, a disarmed timer, a head at both ends
of the retrying range, and a well-formed row. -/
theorem witness_OutboundFramesAreWritten :
    (∃ t, exec .timer (waitingFor .getMode) = .next t ∧
      .write (commandFrame Config.default 0x02 0x00 0x00 0xA160) ∈ newEvents (waitingFor .getMode) t ∧
      .write (commandFrame Config.default 0x08 0x00 0x00 0xA160) ∉ newEvents (waitingFor .getMode) t) ∧
    State.reset.timerArmed = false ∧
    ((waitingFor (.setPeriod 30)).timerArmed = true ∧
      targetId Config.default (some 0xA160) = 0xA160 ∧ 1 ≤ (waitingFor (.setPeriod 30)).rc ∧
      9 < (waitingFor (.setPeriod 30)).cfg.retryBudget ∧
      outcome (.setPeriod 30) (waitingFor (.setPeriod 30)) = none) ∧
    Instr.wf State.reset.cfg (outOf (.setPeriod 30) 0xFFFF 0x25) = true :=
  ⟨⟨_, rfl, by decide, by decide⟩, by decide, by decide, by decide⟩

/-- ID-3's mixed case, CaFe. -/
theorem witness_SensorIdGrammar :
    List.Forall₂ (fun ch d : Char => ch = d ∨ ch = d.toUpper) ['C', 'a', 'F', 'e']
      ([(0xCAFE : Nat) / 4096, 0xCAFE / 256 % 16, 0xCAFE / 16 % 16, 0xCAFE % 16].map Nat.digitChar) := by
  decide

end Sys2Proof.Tests
end

