-- ==== Sys2Proof/Proofs/Encoding.lean ====
section
/-!
PROOFS. The frame layouts of spec/30_encoding.md: each row decodes from its own encoding, a valid inbound
frame has its ten bytes in place, an outbound command its nineteen.
-/

namespace Sys2Proof.Machine

open Sys2Proof

/-! ### Decoding an encoding -/

/-- Every command type differs from the ones the decoder's rows test before it (R365 (1)). -/
theorem commandTypes_distinct {c : Config} (hc : c.Ok) :
    (c.cmdMode ≠ c.cmdQuery ∧ c.cmdFirmware ≠ c.cmdQuery ∧ c.cmdPeriod ≠ c.cmdQuery) ∧
    (c.cmdPower ≠ c.cmdMode ∧ c.cmdFirmware ≠ c.cmdMode ∧ c.cmdPeriod ≠ c.cmdMode) ∧
    (c.cmdFirmware ≠ c.cmdPower ∧ c.cmdPeriod ≠ c.cmdPower) ∧ c.cmdPeriod ≠ c.cmdFirmware := by
  obtain ⟨hn, -⟩ := hc
  simp only [List.nodup_cons, List.mem_cons, List.not_mem_nil, or_false, not_or] at hn
  obtain ⟨⟨hmq, hmp, hmf, hmd⟩, ⟨hqp, hqf, hqd⟩, ⟨hpf, hpd⟩, hfd, -⟩ := hn
  exact ⟨⟨hmq, Ne.symm hqf, Ne.symm hqd⟩, ⟨Ne.symm hmp, Ne.symm hmf, Ne.symm hmd⟩,
    ⟨Ne.symm hpf, Ne.symm hpd⟩, Ne.symm hfd⟩

/-- A frame in the layout of R104 reaches the mode dispatch with its type, mode and argument. -/
theorem decode_outFrame_dispatch (c : Config) (r : Request) (id : Half) (ck : Byte) (o : Operands) :
    decode c (outFrame c r id ck) o =
      if (typeModeArg c r).2.1 = c.modeGet then
        decodeOutGet c (typeModeArg c r).1 (typeModeArg c r).2.2 id ck
      else if (typeModeArg c r).2.1 = c.modeSet then
        decodeOutSet c (typeModeArg c r).1 (typeModeArg c r).2.2 id ck
      else .error .unknownFrame := by
  simp [outFrame, outBody, decode, decodeOut, List.replicate]

/-- An outbound frame decodes to the row of its request, whatever its checksum byte. -/
theorem decode_outFrame {c : Config} (hc : c.Ok) (hd : c.CodesDistinct) (r : Request) (id : Half)
    (ck : Byte) (o : Operands) : decode c (outFrame c r id ck) o = .ok (outOf r id ck) := by
  obtain ⟨-, hmode⟩ := hd
  obtain ⟨⟨hmq, hfq, hdq⟩, ⟨hpm, hfm, hdm⟩, ⟨-, hdp⟩, hdf⟩ := commandTypes_distinct hc
  rw [decode_outFrame_dispatch]
  cases r with
  | queryReading => simp [typeModeArg, decodeOutGet, outOf]
  | getMode => simp [typeModeArg, decodeOutGet, outOf, hmq]
  | getFirmware => simp [typeModeArg, decodeOutGet, outOf, hfq, hfm]
  | getPeriod => simp [typeModeArg, decodeOutGet, outOf, hdq, hdm, hdf]
  | setMode m => cases m <;> simp [typeModeArg, decodeOutSet, outOf, hmode.symm]
  | setSleep b => cases b <;> simp [typeModeArg, decodeOutSet, outOf, hmode.symm, hpm]
  | setPeriod p => simp [typeModeArg, decodeOutSet, outOf, hmode.symm, hdm, hdp]

/-- A frame in the layout of R100 with the sender of a reading decodes to the reading row. -/
theorem decode_inFrame_reading (c : Config) (d0 d1 d2 d3 d4 d5 ck : Byte) (o : Operands) :
    decode c (inFrame c c.sndReading d0 d1 d2 d3 d4 d5 ck) o = .ok (.inReading d0 d1 d2 d3 d4 d5 ck) := by
  simp [inFrame, decode, decodeIn]

/-- A frame in the layout of R100 with the sender of a configuration response is told by its echoed type. -/
theorem decode_inFrame_config {c : Config} (hd : c.CodesDistinct) (d0 d1 d2 d3 d4 d5 ck : Byte)
    (o : Operands) :
    decode c (inFrame c c.sndConfig d0 d1 d2 d3 d4 d5 ck) o =
      if d0 = c.cmdMode then .ok (.inModeResp d1 d2 d3 d4 d5 ck)
      else if d0 = c.cmdPower then .ok (.inSleepResp d1 d2 d3 d4 d5 ck)
      else if d0 = c.cmdFirmware then .ok (.inFirmwareResp d1 d2 d3 d4 d5 ck)
      else if d0 = c.cmdPeriod then .ok (.inPeriodResp d1 d2 d3 d4 d5 ck)
      else .error .unknownFrame := by
  simp [inFrame, decode, decodeIn, hd.1.symm]

/-- Settles O1, format by format: a transaction code selects its row alone, an outbound frame is told by
mode, type and argument, an inbound one by sender and echoed type. -/
theorem decodeOfEncode : Obligations.DecodeOfEncode := by
  intro c i hc hd
  obtain ⟨-, ⟨hpm, hfm, hdm⟩, ⟨hfp, hdp⟩, hdf⟩ := commandTypes_distinct hc
  cases i with
  | push | timer | close | transportError => rfl
  | enqQueryReading | enqSetMode | enqGetMode | enqSetSleep => rfl
  | enqGetFirmware | enqSetPeriod | enqGetPeriod => rfl
  | outQueryReading id ck => exact decode_outFrame hc hd .queryReading id ck _
  | outSetMode m id ck => exact decode_outFrame hc hd (.setMode m) id ck _
  | outGetMode id ck => exact decode_outFrame hc hd .getMode id ck _
  | outSetSleep b id ck => exact decode_outFrame hc hd (.setSleep b) id ck _
  | outGetFirmware id ck => exact decode_outFrame hc hd .getFirmware id ck _
  | outSetPeriod p id ck => exact decode_outFrame hc hd (.setPeriod p) id ck _
  | outGetPeriod id ck => exact decode_outFrame hc hd .getPeriod id ck _
  | inReading d0 d1 d2 d3 d4 d5 ck => exact decode_inFrame_reading c d0 d1 d2 d3 d4 d5 ck _
  | inModeResp _ _ _ _ _ _ => exact (decode_inFrame_config hd ..).trans (if_pos rfl)
  | inSleepResp _ _ _ _ _ _ => exact (decode_inFrame_config hd ..).trans (by simp [hpm])
  | inFirmwareResp _ _ _ _ _ _ => exact (decode_inFrame_config hd ..).trans (by simp [hfm, hfp])
  | inPeriodResp _ _ _ _ _ _ => exact (decode_inFrame_config hd ..).trans (by simp [hdm, hdp, hdf])

/-! ### The valid inbound frames -/

/-- The checksum VALIDATE computes over bytes 2 to 7 of a ten-byte sequence is that of its data bytes. -/
theorem checksum_tenBytes (h s d0 d1 d2 d3 d4 d5 ck t : Byte) :
    checksum [h, s, d0, d1, d2, d3, d4, d5, ck, t] 2 7 = some (dataChecksum d0 d1 d2 d3 d4 d5) := by
  simp [checksum, dataChecksum]

/-- VALIDATE on ten bytes: head, tail and checksum are in their places. -/
theorem validate_tenBytes {c : Config} (hc : c.inLen = 10) (h s d0 d1 d2 d3 d4 d5 ck t : Byte) :
    validate c [h, s, d0, d1, d2, d3, d4, d5, ck, t] = true ↔
      h = c.head ∧ t = c.tail ∧ ck = dataChecksum d0 d1 d2 d3 d4 d5 := by
  simp only [validate, checksum_tenBytes]
  simp [hc, byteAt, and_assoc, eq_comm (a := ck)]

/-- VALIDATE accepts exactly the frames of R100's layout that carry the checksum of their data bytes. -/
theorem validate_iff {c : Config} (hc : c.inLen = 10) (F : List Byte) :
    validate c F = true ↔ ∃ sender d0 d1 d2 d3 d4 d5 : Byte,
      F = inFrame c sender d0 d1 d2 d3 d4 d5 (dataChecksum d0 d1 d2 d3 d4 d5) := by
  constructor
  · intro hv
    have hl : F.length = 10 := by
      simp only [validate, Bool.and_eq_true, beq_iff_eq] at hv
      obtain ⟨⟨⟨hl, -⟩, -⟩, -⟩ := hv
      exact hl.trans hc
    match F, hl with
    | [h, s, d0, d1, d2, d3, d4, d5, ck, t], _ =>
      obtain ⟨rfl, rfl, rfl⟩ := (validate_tenBytes hc ..).mp hv
      exact ⟨s, d0, d1, d2, d3, d4, d5, rfl⟩
  · rintro ⟨s, d0, d1, d2, d3, d4, d5, rfl⟩
    exact (validate_tenBytes hc ..).mpr ⟨rfl, rfl, rfl⟩

/-- A byte is the checksum of six data bytes when it is their sum modulo 256. -/
theorem eq_dataChecksum_iff (ck d0 d1 d2 d3 d4 d5 : Byte) :
    ck = dataChecksum d0 d1 d2 d3 d4 d5 ↔
      ck.toNat = (d0.toNat + d1.toNat + d2.toNat + d3.toNat + d4.toNat + d5.toNat) % 256 := by
  simp [dataChecksum, eq_u8_iff, Nat.add_assoc]

/-- Settles O19, by the layout of the valid frames at the default parameters. -/
theorem validInboundFramesExactly : Obligations.ValidInboundFramesExactly := by
  intro F
  rw [validate_iff rfl]
  constructor
  · rintro ⟨s, d0, d1, d2, d3, d4, d5, rfl⟩
    exact ⟨s, d0, d1, d2, d3, d4, d5, _, rfl, (eq_dataChecksum_iff ..).mp rfl⟩
  · rintro ⟨s, d0, d1, d2, d3, d4, d5, ck, rfl, hck⟩
    obtain rfl := (eq_dataChecksum_iff ..).mpr hck
    exact ⟨s, d0, d1, d2, d3, d4, d5, rfl⟩

/-! ### The outbound command frame -/

/-- Bytes 5 to 14 of an outbound frame are reserved and zero (R104). -/
theorem commandFrame_reserved (c : Config) (ty m a : Byte) (id : Half) (i : Nat) (hlo : 5 ≤ i)
    (hhi : i ≤ 14) : byteAt (commandFrame c ty m a id) i = 0 := by
  interval_cases i <;> rfl

/-- Bytes 15 and 16 of an outbound frame are its target id, high byte first (R109). -/
theorem commandFrame_id (c : Config) (ty m a : Byte) (id : Half) :
    (byteAt (commandFrame c ty m a id) 15).toNat * 256 + (byteAt (commandFrame c ty m a id) 16).toNat =
      id.toNat := by
  change (hi8 id).toNat * 256 + (lo8 id).toNat = id.toNat
  rw [← half_toNat, half_hi8_lo8]

/-- Byte 17 of an outbound frame is the sum of bytes 2 to 16 modulo 256 (R105). -/
theorem commandFrame_checksum (c : Config) (ty m a : Byte) (id : Half) :
    (byteAt (commandFrame c ty m a id) 17).toNat =
      (∑ i ∈ Finset.Icc 2 16, (byteAt (commandFrame c ty m a id) i).toNat) % 256 := by
  have hsum : ∑ i ∈ Finset.Icc 2 16, (byteAt (commandFrame c ty m a id) i).toNat =
      ty.toNat + m.toNat + a.toNat + (hi8 id).toNat + (lo8 id).toNat := by
    rw [← Finset.Ico_add_one_right_eq_Icc, Finset.sum_Ico_eq_sum_range]
    simp [Finset.sum_range_succ, byteAt, commandFrame]
  rw [hsum]
  exact u8_toNat _

/-- Settles O23: ENCODE's frame is the frame written out from R104's table, whose type and mode bytes are
those of the request's row. -/
theorem outboundFrameLayout : Obligations.OutboundFrameLayout := by
  intro r id F isSet
  have hF : F = commandFrame Config.default (typeModeArg Config.default r).1
      (typeModeArg Config.default r).2.1 (typeModeArg Config.default r).2.2
      (targetId Config.default id) := encodeCommand_eq ..
  clear_value F
  subst hF
  refine ⟨rfl, rfl, rfl, ?type, ?mode, rfl, commandFrame_reserved _ _ _ _ _, commandFrame_id ..,
    commandFrame_checksum .., rfl⟩
  case type | mode =>
    cases r with
    | setMode m => cases m <;> rfl
    | setSleep b => cases b <;> rfl
    | _ => rfl

end Sys2Proof.Machine
end

