-- ==== Sys2Proof/Proofs/Codec.lean ====
section
/-!
PROOFS. Decoding an inbound frame by spec/40_codec.md: the sender byte selects the decoder, a reading's two
counts are little-endian.
-/

namespace Sys2Proof.Machine

open Sys2Proof

/-! ### The dispatch of DECODE_FRAME -/

/-- The sender of a reading selects DECODE_READING (R161). -/
theorem decodeFrame_of_sndReading {c : Config} {F : List Byte} (h : byteAt F 1 = c.sndReading) :
    decodeFrame c F = .ok (decodeReading F) :=
  if_pos h

/-- The sender of a configuration response selects DECODE_CONFIG when it is not the reading's too (R161). -/
theorem decodeFrame_of_sndConfig {c : Config} (hc : c.sndReading ≠ c.sndConfig) {F : List Byte}
    (h : byteAt F 1 = c.sndConfig) : decodeFrame c F = decodeConfig c F := by
  have hne : byteAt F 1 ≠ c.sndReading := h.trans_ne hc.symm
  exact (if_neg hne).trans (if_pos h)

/-- Every other sender is unknown (R161). -/
theorem decodeFrame_of_otherSender {c : Config} {F : List Byte} (hr : byteAt F 1 ≠ c.sndReading)
    (hc : byteAt F 1 ≠ c.sndConfig) : decodeFrame c F = .error .unknownSender :=
  (if_neg hr).trans (if_neg hc)

/-- Settles O20: the sender byte selects DECODE_READING, whose counts put the byte at the higher index in
front; a concentration is by definition a tenth of its count. -/
theorem readingsDecodeLittleEndian : Obligations.ReadingsDecodeLittleEndian := by
  intro F _ hs
  have hdecode : decodeFrame Config.default F = .ok (decodeReading F) := decodeFrame_of_sndReading hs
  exact ⟨half (byteAt F 3) (byteAt F 2), half (byteAt F 5) (byteAt F 4), hdecode,
    half_toNat .., half_toNat .., rfl, rfl⟩

/-- Settles O21: one branch of DECODE_FRAME per sender; the two senders of the default parameters differ. -/
theorem decodingDispatchesOnTheSender : Obligations.DecodingDispatchesOnTheSender := by
  intro F _
  have hsenders : Config.default.sndReading ≠ Config.default.sndConfig := by decide
  refine ⟨fun hreading => ?_, fun hconfig => ?_, fun hnotReading hnotConfig => ?_⟩
  · exact decodeFrame_of_sndReading hreading
  · exact decodeFrame_of_sndConfig hsenders hconfig
  · exact decodeFrame_of_otherSender hnotReading hnotConfig

end Sys2Proof.Machine
end

