-- ==== Sys2Proof/Proofs/Framer.lean ====
section
/-!
PROOFS. The extraction loop of spec/41_framer.md: an iteration on a buffer that starts with a candidate.
-/

namespace Sys2Proof.Machine

open Sys2Proof

/-! ### An iteration with a candidate in place -/

/-- A head marker at index 0 leaves the iteration to the tail search: nothing is dropped before it (R182). -/
theorem scan_of_head {s : State} (hbuf : 0 < s.buf.length) (hhead : byteAt s.buf 0 = s.cfg.head) :
    scan s = (scanHead s, true) := by
  simp only [scan, indexFrom_here hbuf hhead]

/-- A tail marker at index IN_LEN - 1 completes a candidate (R189). -/
theorem scanHead_of_tail {s : State} (hbuf : s.cfg.inLen - 1 < s.buf.length)
    (htail : byteAt s.buf (s.cfg.inLen - 1) = s.cfg.tail) : scanHead s = takeCandidate s := by
  simp only [scanHead, indexFrom_here hbuf htail, if_true]

/-- A candidate that VALIDATE refuses is reported as an invalid frame (R190). -/
theorem dispose_of_invalid {cand : List Byte} {s : State} (h : validate s.cfg cand = false) :
    dispose cand s = { s with out := s.out ++ [.messageError cand .invalidFrame] } := by
  simp only [dispose, h, Bool.false_eq_true, if_false]
  rfl

/-- With both markers in place the iteration cuts the candidate off, disposes of it and goes on (R189). -/
theorem scan_of_candidate {s : State} (hc : s.cfg.Ok) (hlen : s.cfg.inLen ≤ s.buf.length)
    (hhead : byteAt s.buf 0 = s.cfg.head) (htail : byteAt s.buf (s.cfg.inLen - 1) = s.cfg.tail) :
    scan s = (dispose (s.buf.take s.cfg.inLen) { s with buf := s.buf.drop s.cfg.inLen }, true) := by
  obtain ⟨-, -, -, -, hmin, -⟩ := hc
  rw [scan_of_head (by omega) hhead, scanHead_of_tail (by omega) htail]
  rfl

/-- Settles O29: the iteration disposes of the candidate, and to dispose of an invalid one is to report
it. -/
theorem invalidCandidatesAreReported : Obligations.InvalidCandidatesAreReported := by
  intro s hc hlen hhead htail hinvalid
  exact (scan_of_candidate hc hlen hhead htail).trans
    (congrArg (·, true) (dispose_of_invalid hinvalid))

end Sys2Proof.Machine
end

