-- ==== Sys2Proof/Proofs/DeviceState.lean ====
section
/-!
PROOFS. What a valid configuration response writes by spec/42_device_state.md: the echoed command type
selects the message, HANDLE_VALID applies it.
-/

namespace Sys2Proof.Machine

open Sys2Proof

/-! ### The dispatch of DECODE_CONFIG -/

/-- The mode type selects the mode message (R160). -/
theorem decodeConfig_of_cmdMode {c : Config} {F : List Byte} (h : byteAt F 2 = c.cmdMode) :
    decodeConfig c F = .ok (.mode (if byteAt F 4 = 0 then .active else .query)) :=
  if_pos h

/-- The power type selects the sleep message when it is not the mode type too (R160). -/
theorem decodeConfig_of_cmdPower {c : Config} (hc : c.cmdPower ≠ c.cmdMode) {F : List Byte}
    (h : byteAt F 2 = c.cmdPower) : decodeConfig c F = .ok (.sleep (byteAt F 4 == 0)) := by
  have hne : byteAt F 2 ≠ c.cmdMode := h.trans_ne hc
  exact (if_neg hne).trans (if_pos h)

/-! ### HANDLE_VALID on a frame that decodes -/

/-- A decoded message is applied, passed through and perhaps announced (R211). -/
theorem handleValid_of_decoded {F : List Byte} {s : State} {m : Msg} (h : decodeFrame s.cfg F = .ok m) :
    handleValid F s = announce m (emit (.message m) (apply m s)) := by
  simp only [handleValid, h]

/-- The mode field after a frame that decodes is the one APPLY leaves: the events do not touch it. -/
theorem handleValid_mode {F : List Byte} {s : State} {m : Msg} (h : decodeFrame s.cfg F = .ok m) :
    (handleValid F s).mode = (apply m s).mode := by
  rw [handleValid_of_decoded h, announce_mode, emit_mode]

/-- The sleeping field after a frame that decodes is the one APPLY leaves. -/
theorem handleValid_sleeping {F : List Byte} {s : State} {m : Msg} (h : decodeFrame s.cfg F = .ok m) :
    (handleValid F s).sleeping = (apply m s).sleeping := by
  rw [handleValid_of_decoded h, announce_sleeping, emit_sleeping]

/-- Settles O36: the sender selects DECODE_CONFIG, the echoed type its message, and APPLY of that message
writes the field. -/
theorem modeAndSleepResponsesWriteTheirField : Obligations.ModeAndSleepResponsesWriteTheirField := by
  intro F s hcfg _ hsender
  have hsenders : s.cfg.sndReading ≠ s.cfg.sndConfig := by rw [hcfg]; decide
  have htypes : s.cfg.cmdPower ≠ s.cfg.cmdMode := by rw [hcfg]; decide
  have hconfig : byteAt F 1 = s.cfg.sndConfig := by rw [hcfg]; exact hsender
  have hdecode : decodeFrame s.cfg F = decodeConfig s.cfg F := decodeFrame_of_sndConfig hsenders hconfig
  constructor
  · intro hmode
    exact handleValid_mode (hdecode.trans (decodeConfig_of_cmdMode hmode))
  · intro hpower
    exact handleValid_sleeping (hdecode.trans (decodeConfig_of_cmdPower htypes hpower))

end Sys2Proof.Machine
end

