-- ==== Sys2Proof/Proofs/Scheduler.lean ====
section
/-!
PROOFS. The scheduler's operations of spec/43_scheduler.md on a closed block.
-/

namespace Sys2Proof.Machine

open Sys2Proof

/-! ### CLOSE -/

/-- CLOSE always completes, with the state `closeBlock` leaves (R262). -/
theorem exec_close (s : State) : exec .close s = .next (closeBlock s) := rfl

/-- On a closed block CLOSE only reports that it is closed already (R263). -/
theorem closeBlock_of_closed {s : State} (h : s.closed = true) :
    closeBlock s = raise (.notice .alreadyClosed) s :=
  if_pos h

/-- Reporting a notice appends that one event and changes nothing else (60_exceptions.md R320). -/
theorem raise_notice (n : NoticeKind) (s : State) :
    raise (.notice n) s = { s with out := s.out ++ [.notice n] } := rfl

/-- Settles O57: the second CLOSE takes the branch of the closed block, which only reports the notice. -/
theorem secondCloseIsANotice : Obligations.SecondCloseIsANotice := by
  intro s hclosed
  rw [exec_close, closeBlock_of_closed hclosed, raise_notice]

end Sys2Proof.Machine
end

