-- ==== Sys2Proof/Proofs/Exceptions.lean ====
section
/-!
PROOFS. The message errors of spec/60_exceptions.md: a valid frame that does not decode is reported, and
reporting it is all that happens.
-/

namespace Sys2Proof.Machine

open Sys2Proof

/-! ### Frames that do not decode -/

/-- An echoed type that is none of the four command types of a response is unknown (R160). -/
theorem decodeConfig_of_otherType {c : Config} {F : List Byte}
    (h : byteAt F 2 ∉ [c.cmdMode, c.cmdPower, c.cmdFirmware, c.cmdPeriod]) :
    decodeConfig c F = .error .unknownCommand := by
  simp only [List.mem_cons, List.not_mem_nil, or_false, not_or] at h
  obtain ⟨hmode, hpower, hfirmware, hperiod⟩ := h
  simp only [decodeConfig, if_neg hmode, if_neg hpower, if_neg hfirmware, if_neg hperiod]

/-- HANDLE_VALID reports a frame that does not decode, by the decoder's reason, and changes nothing else
(R323). -/
theorem handleValid_of_undecodable {F : List Byte} {s : State} {r : MsgReason}
    (h : decodeFrame s.cfg F = .error r) :
    handleValid F s = { s with out := s.out ++ [.messageError F r] } := by
  simp only [handleValid, h]
  rfl

/-- Settles O37: neither frame decodes, the first for its sender, the second for its echoed type. -/
theorem undecodableFramesAreReported : Obligations.UndecodableFramesAreReported := by
  intro F s hcfg _
  have hreading : s.cfg.sndReading = 0xC0 := by rw [hcfg]; rfl
  have hconfig : s.cfg.sndConfig = 0xC5 := by rw [hcfg]; rfl
  have hsenders : s.cfg.sndReading ≠ s.cfg.sndConfig := by rw [hcfg]; decide
  constructor
  · intro hnotReading hnotConfig
    exact handleValid_of_undecodable
      (decodeFrame_of_otherSender (hreading ▸ hnotReading) (hconfig ▸ hnotConfig))
  · intro hsender htype
    have hdecode : decodeFrame s.cfg F = decodeConfig s.cfg F :=
      decodeFrame_of_sndConfig hsenders (hsender.trans hconfig.symm)
    exact handleValid_of_undecodable (hdecode.trans (decodeConfig_of_otherType htype))

end Sys2Proof.Machine
end

