-- ==== Sys2Proof/Proofs/Steps.lean ====
section
/-!
PROOFS. What every instruction and every step does and leaves unchanged: the instructions outside the
decode path, the decode path, a closed block, and what the channel's next packet decides.
-/

namespace Sys2Proof.Machine

open Sys2Proof

/-! ### Instructions outside the decode path -/

/-- Every sensor-observed field is kept or becomes PENDING (10_state.md R41 (b)). -/
structure FieldsKept (s t : State) : Prop where
  pm25 : keptOrPending s.pm25 t.pm25
  pm10 : keptOrPending s.pm10 t.pm10
  mode : keptOrPending s.mode t.mode
  sleeping : keptOrPending s.sleeping t.sleeping
  fw : keptOrPending s.fw t.fw
  period : keptOrPending s.period t.period

/-- What an instruction outside the decode path may do short of closing the block: the buffer, `closed`, the
channel, the parameters and the refusal marks stay, no field takes a value, and at most one of the new
events is a write. -/
structure Served (s t : State) : Prop where
  buf : t.buf = s.buf
  closed : t.closed = s.closed
  chan : t.chan = s.chan
  cfg : t.cfg = s.cfg
  refusals : t.refusals = s.refusals
  fields : FieldsKept s t
  out : ∃ es, t.out = s.out ++ es ∧ es.countP isWrite ≤ 1

theorem FieldsKept.refl (s : State) : FieldsKept s s :=
  ⟨.inl rfl, .inl rfl, .inl rfl, .inl rfl, .inl rfl, .inl rfl⟩

theorem Served.refl (s : State) : Served s s :=
  ⟨rfl, rfl, rfl, rfl, rfl, .refl s, [], by simp, by simp⟩

/-- An instruction may emit one event. -/
theorem Served.of_emit (e : Event) (s : State) : Served s (emit e s) :=
  ⟨rfl, rfl, rfl, rfl, rfl, ⟨.inl rfl, .inl rfl, .inl rfl, .inl rfl, .inl rfl, .inl rfl⟩, [e], rfl,
    List.countP_le_length⟩

/-- Settlements are no writes. -/
theorem countP_isWrite_settlements (q : List Desc) (rs : List Result) :
    (List.zipWith (fun d r => Event.settle d.tag r) q rs).countP isWrite = 0 := by
  rw [List.countP_eq_zero]
  intro e he
  obtain ⟨i, -, rfl⟩ := List.getElem_of_mem he
  simp [isWrite]

/-- Of the events a tick adds at most one is a write (43_scheduler.md R254). -/
theorem Ticked.writes {q : List Desc} {s t : State} (h : Ticked q s t) :
    ∃ es, t.out = s.out ++ es ∧ es.countP isWrite ≤ 1 := by
  obtain ⟨_, ws, rs, -, -, -, hout, hws⟩ := h.out
  refine ⟨_, by rw [hout, List.append_assoc], ?_⟩
  rw [List.countP_append, countP_isWrite_settlements, Nat.zero_add]
  obtain rfl | ⟨f, rfl⟩ := hws <;> simp [isWrite]

/-- The step of the armed timer is a tick. -/
theorem fireTimer_served (s : State) : Served s (fireTimer s) := by
  have h := tick_ticked { s with timerArmed := false }
  exact ⟨h.buf, h.closed, h.chan, h.cfg, h.refusals,
    ⟨h.pm25, h.pm10, h.mode, h.sleeping, h.fw, h.period⟩, h.writes⟩

/-- A frame row is nothing or the timer's step. -/
theorem writeFrame_served (r : Request) (id : Half) (s : State) : Served s (writeFrame r id s) := by
  obtain h | ⟨-, h, -⟩ := writeFrame_cases r id s
  · rw [h]; exact .refl s
  · rw [h]; exact fireTimer_served s

theorem enqueue_served (d : Desc) (s : State) : Served s (enqueue d s) := by
  obtain ⟨-, h | h⟩ | ⟨-, -, h⟩ | ⟨-, -, h⟩ := enqueue_cases d s <;> rw [h]
  · exact .refl s
  · exact .of_emit _ s
  · exact ⟨rfl, rfl, rfl, rfl, rfl, ⟨.inl rfl, .inl rfl, .inl rfl, .inl rfl, .inl rfl, .inl rfl⟩, [],
      by simp, by simp⟩
  · have h := tick_ticked { s with q := s.q ++ [d], sst := .processing }
    exact ⟨h.buf, h.closed, h.chan, h.cfg, h.refusals,
      ⟨h.pm25, h.pm10, h.mode, h.sleeping, h.fw, h.period⟩, h.writes⟩

theorem call_served (tag : Token) (req : Except InputReason Request) (idstr : Option Text) (s : State) :
    Served s (call tag req idstr s) := by
  obtain ⟨e, h⟩ | ⟨r, id, -, -, h⟩ := call_cases tag req idstr s <;> rw [h]
  · exact .of_emit _ s
  · exact enqueue_served _ s

/-- The frame of every instruction that is neither a CLOSE nor of the decode path. -/
theorem exec_served {i : Instr} {s t : State} (hi : isInbound i = false) (hc : i ≠ .close)
    (h : exec i s = .next t) : Served s t := by
  obtain ⟨_, hb, -⟩ | ⟨-, -, rfl⟩ | ⟨hclose, -⟩ | ⟨e, -, rfl⟩ | ⟨r, id, -, -, rfl⟩ |
    ⟨-, tag, req, idstr, -, -, -, -, -, rfl⟩ := exec_cases h
  · rw [hi] at hb; cases hb
  · exact fireTimer_served s
  · exact absurd hclose hc
  · exact .of_emit _ s
  · exact writeFrame_served r id s
  · exact call_served tag req idstr s

/-! ### CLOSE -/

/-- What the first CLOSE settles of the queue it drops, by policy (R264). -/
def droppedSettlements (policy : TeardownPolicy) (q : List Desc) : List Event :=
  match policy with
  | .leaveUnsettled => []
  | .failClosed => q.map (fun d => .settle d.tag (.failure .connectionClosed))

/-- The first CLOSE empties the scheduler and the buffer, after the settlements of its policy (R262, R264). -/
theorem closeBlock_of_open {s : State} (h : s.closed = false) :
    closeBlock s = { s with
      closed := true, q := [], rc := 0, sst := .idle, timerArmed := false, buf := [],
      out := s.out ++ droppedSettlements s.cfg.teardown s.q ++ [.transportClose] } := by
  cases ht : s.cfg.teardown <;> simp [closeBlock, h, ht, emit, shut, failAll_eq, droppedSettlements]

/-- Settles O56: CLOSE on an open block is `closeBlock` there. -/
theorem closeEmptiesTheScheduler : Obligations.CloseEmptiesTheScheduler := fun s hopen =>
  (exec_close s).trans (congrArg Host.Outcome.next (closeBlock_of_open hopen))

/-- What a CLOSE may do: the channel, the parameters, the refusal marks and the sensor-observed fields stay,
and no new event is a write. -/
theorem closeBlock_frame (s : State) :
    closeBlock s = { s with
      closed := (closeBlock s).closed, q := (closeBlock s).q, rc := (closeBlock s).rc,
      sst := (closeBlock s).sst, timerArmed := (closeBlock s).timerArmed, buf := (closeBlock s).buf,
      out := (closeBlock s).out } ∧
    ∃ es, (closeBlock s).out = s.out ++ es ∧ es.countP isWrite = 0 := by
  cases h : s.closed with
  | true =>
    rw [closeBlock_of_closed h, raise_notice]
    exact ⟨rfl, _, rfl, rfl⟩
  | false =>
    rw [closeBlock_of_open h]
    refine ⟨rfl, _, List.append_assoc .., ?_⟩
    cases s.cfg.teardown
    · rfl
    · simp [droppedSettlements, List.countP_eq_zero, isWrite]

/-- No field changes in a CLOSE (10_state.md R41). -/
theorem closeBlock_fieldsKept (s : State) : FieldsKept s (closeBlock s) := by
  rw [(closeBlock_frame s).1]
  exact ⟨.inl rfl, .inl rfl, .inl rfl, .inl rfl, .inl rfl, .inl rfl⟩

/-- Settles O13: a tick, a CLOSE or an event is all an instruction outside the decode path is made of. -/
theorem onlyDecodingWritesValues : Obligations.OnlyDecodingWritesValues := by
  intro i s t hi h
  have hkept : FieldsKept s t := by
    by_cases hc : i = .close
    · subst hc
      injection h with h
      exact h ▸ closeBlock_fieldsKept s
    · exact (exec_served hi hc h).fields
  exact ⟨hkept.pm25, hkept.pm10, hkept.mode, hkept.sleeping, hkept.fw, hkept.period⟩

/-! ### The decode path -/

/-- An instruction of the decode path is the PUSH of the chunk it delivers, in every state (log 7). -/
theorem exec_of_isInbound {i : Instr} (hi : isInbound i = true) (s : State) :
    exec i s = .next (push (arrivingChunk s.cfg i) s) := by
  cases i with
  | push | inReading | inModeResp | inSleepResp | inFirmwareResp | inPeriodResp => rfl
  | _ => cases hi

/-- Settles O40: both sides are the PUSH of the frame's ten bytes. -/
theorem inboundFramesArriveAsChunks : Obligations.InboundFramesArriveAsChunks := by
  intro s d0 d1 d2 d3 d4 d5 ck i hi
  simp only [List.mem_cons, List.not_mem_nil, or_false] at hi
  obtain rfl | rfl | rfl | rfl | rfl := hi <;> rfl

/-- On an open block a PUSH emits its raw-data event and then does what the decode path may do. -/
theorem push_decoded {s : State} (h : s.closed = false) (chunk : List Byte) :
    Decoded { s with buf := s.buf ++ chunk, out := s.out ++ [.data chunk] } (push chunk s) := by
  rw [push_open h]
  exact extract_decoded _

/-- Settles O14: the instruction is a PUSH, which is nothing on a closed block and the extraction loop on an
open one. -/
theorem decodePathLeavesTheScheduler : Obligations.DecodePathLeavesTheScheduler := by
  intro i s hi
  refine ⟨_, exec_of_isInbound hi s, ?_⟩
  cases hc : s.closed with
  | true =>
    rw [push_closed hc]
    exact ⟨hc, rfl, rfl, rfl, rfl, rfl, rfl, rfl, fun _ => rfl, nofun⟩
  | false =>
    have h := push_decoded hc (arrivingChunk s.cfg i)
    exact ⟨h.closed.trans hc, h.q, h.rc, h.sst, h.timerArmed, h.chan, h.cfg, h.refusals, nofun,
      fun _ => h.out⟩

/-! ### Every instruction -/

/-- What every instruction leaves alone, and that its events go behind the old ones. -/
structure Appended (s t : State) : Prop where
  chan : t.chan = s.chan
  cfg : t.cfg = s.cfg
  refusals : t.refusals = s.refusals
  out : ∃ es, t.out = s.out ++ es ∧ es.countP isWrite ≤ 1

/-- The decode path writes no frame. -/
theorem push_writes (chunk : List Byte) (s : State) :
    ∃ es, (push chunk s).out = s.out ++ es ∧ es.countP isWrite = 0 := by
  cases hc : s.closed with
  | true => exact ⟨[], by simp [push_closed hc], rfl⟩
  | false =>
    obtain ⟨es, hout, hdec⟩ := (push_decoded hc chunk).out
    refine ⟨.data chunk :: es, by simpa using hout, List.countP_eq_zero.mpr fun e he => ?_⟩
    obtain rfl | he := List.mem_cons.mp he
    · simp [isWrite]
    · simp [(isDecodeEvent_ne (hdec e he)).2]

theorem push_appended (chunk : List Byte) (s : State) : Appended s (push chunk s) := by
  obtain ⟨es, hout, hwrites⟩ := push_writes chunk s
  cases hc : s.closed with
  | true => rw [push_closed hc]; exact ⟨rfl, rfl, rfl, [], by simp, by simp⟩
  | false =>
    have h := push_decoded hc chunk
    exact ⟨h.chan, h.cfg, h.refusals, es, hout, by omega⟩

theorem closeBlock_appended (s : State) : Appended s (closeBlock s) := by
  obtain ⟨hframe, es, hout, hw⟩ := closeBlock_frame s
  exact ⟨by rw [hframe], by rw [hframe], by rw [hframe], es, hout, by omega⟩

/-- Whatever the instruction: the channel, the parameters and the marks stay, the trace grows, and by one
write at most. -/
theorem exec_appended {i : Instr} {s t : State} (h : exec i s = .next t) : Appended s t := by
  by_cases hi : isInbound i = true
  · rw [exec_of_isInbound hi] at h
    injection h with h
    exact h ▸ push_appended _ s
  · by_cases hc : i = .close
    · subst hc
      injection h with h
      exact h ▸ closeBlock_appended s
    · have hs := exec_served (by simpa using hi) hc h
      exact ⟨hs.chan, hs.cfg, hs.refusals, hs.out⟩

/-- An outbound frame row is `writeFrame` of its request (log 8). -/
theorem exec_outOf (r : Request) (id : Half) (ck : Byte) (s : State) :
    exec (outOf r id ck) s = .next (writeFrame r id s) := by
  cases r <;> rfl

/-- TIMER runs while the timer is armed, and only then (43_scheduler.md R258). -/
theorem exec_timer_armed {s : State} (h : s.timerArmed = true) : exec .timer s = .next (fireTimer s) :=
  if_pos h

theorem exec_timer_disarmed {s : State} (h : s.timerArmed = false) :
    exec .timer s = .refused .timerDisarmed :=
  if_neg (by simp [h])

/-- A TIMER that completes is the step of the armed timer. -/
theorem exec_timer_next {s t : State} (h : exec .timer s = .next t) :
    s.timerArmed = true ∧ t = fireTimer s := by
  cases harmed : s.timerArmed with
  | false => rw [exec_timer_disarmed harmed] at h; cases h
  | true =>
    rw [exec_timer_armed harmed] at h
    injection h with h
    exact ⟨rfl, h.symm⟩

/-- Settles O15, clause by clause from the frames above. -/
theorem whatInstructionsLeaveAlone : Obligations.WhatInstructionsLeaveAlone := by
  intro i s t h
  have happ := exec_appended h
  refine ⟨happ.chan, happ.cfg, happ.refusals, fun hc => ?closed, fun hc hi => (exec_served hi hc h).buf,
    ?transport, ?row, ?close⟩
  case closed =>
    by_cases hi : isInbound i = true
    · obtain ⟨u, hu, hclosed, -⟩ := decodePathLeavesTheScheduler i s hi
      rw [h] at hu
      injection hu with hu
      exact hu ▸ hclosed
    · exact (exec_served (by simpa using hi) hc h).closed
  case transport =>
    rintro err rfl
    injection h with h
    exact h ▸ rfl
  case row =>
    rintro r id ck rfl
    rw [exec_outOf] at h
    injection h with h
    obtain hsame | ⟨harmed, hfire, -⟩ := writeFrame_cases r id s
    · exact .inl (h ▸ hsame)
    · exact .inr (by rw [exec_timer_armed harmed, ← h, hfire])
  case close =>
    rintro rfl
    injection h with h
    exact h ▸ (closeBlock_frame s).1

/-- Settles O58: TRANSPORT_ERROR is one emitted event. -/
theorem transportErrorsPassThrough : Obligations.TransportErrorsPassThrough := fun _ _ => rfl

/-! ### Steps -/

/-- TIMER is the one instruction that a state can refuse (R369 (b)). -/
theorem exec_completes {i : Instr} (hi : i ≠ .timer) (s : State) : ∃ t, exec i s = .next t := by
  cases i with
  | timer => exact absurd rfl hi
  | _ => exact ⟨_, rfl⟩

/-- With nothing on the channel the step is TIMER's while armed, and the block waits otherwise. -/
theorem step_of_idle_channel {s : State} (h : s.chan = []) :
    step s = if s.timerArmed then exec .timer s else .next s := by
  cases ha : s.timerArmed with
  | false => simp [step, nextPacket, h, ha]
  | true => simp [step, nextPacket, h, ha, vetPacket, timerPacket, decode, decodeTxn, Instr.issuer,
      exec_timer_armed ha, orTurnAway]

/-- Settles O5: the two branches of the step on an empty channel. -/
theorem emptyChannelFiresTheTimerOrWaits : Obligations.EmptyChannelFiresTheTimerOrWaits := by
  intro s hchan
  rw [step_of_idle_channel hchan]
  exact ⟨fun h => if_pos h, fun h => if_neg (by simp [h])⟩

section Packets

variable {s : State} {p : Packet} {rest : List Packet} (hchan : s.chan = p :: rest)
include hchan

/-- A packet that decodes and comes from the role that may issue it runs, or is marked where its instruction
is refused. -/
theorem step_of_proper {i : Instr} (hd : decode s.cfg p.code p.ops = .ok i) (hp : p.issuer = i.issuer) :
    step s = orTurnAway p { s with chan := rest } (exec i { s with chan := rest }) := by
  simp [step_packet hchan, vetPacket, hd, hp]

/-- A packet of another role is marked and passed over. -/
theorem step_of_wrongIssuer {i : Instr} (hd : decode s.cfg p.code p.ops = .ok i)
    (hp : p.issuer ≠ i.issuer) :
    step s = .next { s with
      chan := rest, refusals := s.refusals ++ [{ packet := p, reason := .wrongIssuer }] } := by
  simp [step_packet hchan, vetPacket, hd, hp, turnAway]

/-- A packet whose code names no row is marked and passed over. -/
theorem step_of_undecodable {e : DecodeError} (hd : decode s.cfg p.code p.ops = .error e) :
    step s = .next { s with
      chan := rest, refusals := s.refusals ++ [{ packet := p, reason := .undecodable e }] } := by
  simp [step_packet hchan, vetPacket, hd, turnAway]

end Packets

/-- Settles O4: vetting lets the packet through, and what is refused is marked. -/
theorem stepRunsTheDecodedInstruction : Obligations.StepRunsTheDecodedInstruction := by
  intro s p rest i hchan hd hp
  rw [step_of_proper hchan hd hp]
  constructor
  · rintro t ht
    rw [ht, orTurnAway]
  · rintro r hr
    rw [hr]
    rfl

/-- A code byte outside the table names no row (30_encoding.md R120). -/
theorem decode_of_unknownCode (c : Config) {tc : Byte} (o : Operands)
    (h : tc ∉ ([0x01, 0x02, 0x03, 0x04, 0x10, 0x11, 0x12, 0x13, 0x14, 0x15, 0x16] : List Byte)) :
    decode c [tc] o = .error (.unknownCode tc) := by
  simp only [List.mem_cons, List.not_mem_nil, or_false, not_or] at h
  simp only [decode, decodeTxn, h, if_false]

/-- Settles O6: an unknown code byte does not decode, and what does not decode is marked. -/
theorem unknownTransactionCodesAreRefused : Obligations.UnknownTransactionCodesAreRefused := by
  intro s p rest hchan marked
  refine ⟨fun tc hcode htc => ?_, fun e he => step_of_undecodable hchan he⟩
  exact step_of_undecodable hchan (by rw [hcode]; exact decode_of_unknownCode _ _ htc)

/-- Settles O7: vetting refuses the packet. -/
theorem onlyTheProperIssuerIsServed : Obligations.OnlyTheProperIssuerIsServed := by
  intro s p rest i hchan hd hp
  exact step_of_wrongIssuer hchan hd hp

/-- With its refusals marked every instruction completes, and leaves the channel alone. -/
theorem orTurnAway_completes (p : Packet) (i : Instr) (s : State) :
    ∃ t, orTurnAway p s (exec i s) = .next t ∧ t.chan = s.chan := by
  cases h : exec i s with
  | next t => exact ⟨t, rfl, (exec_appended h).chan⟩
  | fault f => cases f
  | refused r => exact ⟨_, rfl, rfl⟩

/-- Settles O16: no instruction but TIMER is ever refused, and a step marks what is. -/
theorem onlyTheDisarmedTimerIsDisabled : Obligations.OnlyTheDisarmedTimerIsDisabled := by
  constructor
  · intro i s
    by_cases hi : i = .timer
    · subst hi
      cases ha : s.timerArmed with
      | true => exact .inl ⟨_, exec_timer_armed ha⟩
      | false => exact .inr ⟨rfl, rfl, exec_timer_disarmed ha⟩
    · exact .inl (exec_completes hi s)
  · intro s
    cases hchan : s.chan with
    | nil =>
      rw [step_of_idle_channel hchan]
      cases ha : s.timerArmed with
      | true => exact ⟨_, exec_timer_armed ha, (fireTimer_served s).chan.trans hchan⟩
      | false => exact ⟨s, rfl, hchan⟩
    | cons p rest =>
      rw [step_packet hchan]
      cases vetPacket s.cfg p with
      | error r => exact ⟨_, rfl, rfl⟩
      | ok i => exact orTurnAway_completes p i { s with chan := rest }

/-- Settles O11: an instruction appends events, a mark appends a mark, waiting appends nothing. -/
theorem traceOnlyGrowsAndParametersStay : Obligations.TraceOnlyGrowsAndParametersStay := by
  intro s t h
  obtain rfl | ⟨i, hi⟩ | ⟨p, r, rfl⟩ := step_cases h
  · exact ⟨List.prefix_rfl, rfl, List.prefix_rfl⟩
  · have happ := exec_appended hi
    obtain ⟨es, hout, -⟩ := happ.out
    exact ⟨⟨es, hout.symm⟩, happ.cfg, by rw [happ.refusals]⟩
  · exact ⟨List.prefix_rfl, rfl, List.prefix_append ..⟩

/-! ### After CLOSE -/

/-- An instruction that completes on a closed block adds error events and changes nothing else. -/
theorem exec_of_closed {i : Instr} {s t : State} (hinv : s.Inv) (hc : s.closed = true)
    (h : exec i s = .next t) :
    ∃ es, t = { s with out := s.out ++ es } ∧ ∀ e ∈ es, isAfterClose e = true := by
  obtain ⟨-, hdisarmed, -⟩ := hinv.closed hc
  have same : ∃ es, s = { s with out := s.out ++ es } ∧ ∀ e ∈ es, isAfterClose e = true :=
    ⟨[], by simp, by simp⟩
  have one : ∀ e, isAfterClose e = true →
      ∃ es, emit e s = { s with out := s.out ++ es } ∧ ∀ e ∈ es, isAfterClose e = true :=
    fun e he => ⟨[e], rfl, by simpa using he⟩
  obtain ⟨_, -, rfl⟩ | ⟨-, harmed, -⟩ | ⟨-, rfl⟩ | ⟨e, -, rfl⟩ | ⟨r, id, -, -, rfl⟩ |
    ⟨-, tag, req, idstr, -, -, -, -, -, rfl⟩ := exec_cases h
  · rw [push_closed hc]; exact same
  · rw [hdisarmed] at harmed; cases harmed
  · rw [closeBlock_of_closed hc]; exact one _ rfl
  · exact one _ rfl
  · rw [writeFrame_disarmed hdisarmed]; exact same
  · obtain ⟨e, he⟩ | ⟨r, id, -, -, he⟩ := call_cases tag req idstr s <;> rw [he]
    · exact one _ rfl
    · obtain ⟨-, hq | hq⟩ | ⟨hopen, -⟩ | ⟨hopen, -⟩ := enqueue_cases ⟨r, id, tag⟩ s
      · rw [hq]; exact same
      · rw [hq]; exact one _ rfl
      · rw [hc] at hopen; cases hopen
      · rw [hc] at hopen; cases hopen

/-- The invariants read neither the channel, nor the trace, nor the refusal marks. -/
theorem State.Inv.of_io {s : State} (h : s.Inv) (chan : List Packet) (out : List Event)
    (refusals : List RefusedTxn) : State.Inv { s with chan := chan, out := out, refusals := refusals } :=
  ⟨h.idle_iff_empty, h.empty_counter, h.processing, h.armed, h.closed, h.buffer, h.requests, h.config⟩

/-- Settles O12: a step waits, marks a packet, or runs an instruction on the closed state without it. -/
theorem closedForGood : Obligations.ClosedForGood := by
  intro s t hinv hc h
  obtain rfl | ⟨i, hi⟩ | ⟨p, r, rfl⟩ := step_cases h
  · exact ⟨rfl, by simp [newEvents]⟩
  · obtain ⟨es, rfl, hes⟩ := exec_of_closed (hinv.of_io s.chan.tail s.out s.refusals) hc hi
    exact ⟨rfl, by simpa [newEvents] using hes⟩
  · exact ⟨rfl, by simp [newEvents]⟩

end Sys2Proof.Machine
end

