-- ==== Sys2Proof/Proofs/Invariant.lean ====
section
/-!
PROOFS. The invariants of spec/10_state.md section 4 hold at reset and after every step: the decode path
leaves less than a frame buffered, and a tick ends idle or waiting for its head.
-/

namespace Sys2Proof.Machine

open Sys2Proof

/-! ### The constraints on the parameters -/

/-- At least one write per command (R365). -/
theorem one_le_retryBudget {c : Config} (hc : c.Ok) : 1 ≤ c.retryBudget := by
  obtain ⟨-, hbudget, -⟩ := hc
  exact hbudget

/-- At least ten bytes per frame (R365). -/
theorem ten_le_inLen {c : Config} (hc : c.Ok) : 10 ≤ c.inLen := by
  obtain ⟨-, -, -, -, hmin, -⟩ := hc
  exact hmin

/-! ### The buffer after a PUSH -/

/-- The loop halts only where the buffer holds no head, and then clears it (R184). -/
theorem scan_halted {s : State} (h : (scan s).2 = false) : (scan s).1 = { s with buf := [] } := by
  unfold scan at h ⊢
  split
  · rfl
  · rename_i hfirst
    rw [hfirst] at h
    cases h
  · rename_i hfirst
    rw [hfirst] at h
    cases h

/-- Induction along the iterations of EXTRACT (R182): a relation of the state before and after holds if it
holds where the loop stops and carries over each iteration that goes on. -/
theorem extract_induction {rel : State → State → Prop}
    (short : ∀ s : State, s.cfg.Ok → s.buf.length < s.cfg.inLen → rel s s)
    (halted : ∀ s : State, s.cfg.Ok → rel s { s with buf := [] })
    (again : ∀ s t : State, s.cfg.Ok → s.cfg.inLen ≤ s.buf.length → rel (scan s).1 t → rel s t)
    {s : State} (hc : s.cfg.Ok) : rel s (extract s) := by
  induction hn : s.buf.length using Nat.strong_induction_on generalizing s with
  | h n ih =>
    subst hn
    by_cases hl : s.buf.length < s.cfg.inLen
    · rw [extract_short hl]
      exact short s hc hl
    have hlen : s.cfg.inLen ≤ s.buf.length := by omega
    cases hgo : (scan s).2 with
    | true =>
      have hcfg := (scan_decoded s).cfg
      rw [extract_again hc hlen (Prod.ext rfl hgo)]
      exact again s _ hc hlen (ih _ (scan_consumes hc hlen) (by rwa [hcfg]) rfl)
    | false =>
      rw [extract_halt hc hlen (Prod.ext (scan_halted hgo) hgo)]
      exact halted s hc

/-- EXTRACT leaves less than a frame (41_framer.md R193). -/
theorem extract_buf_lt {s : State} (hc : s.cfg.Ok) : (extract s).buf.length < s.cfg.inLen := by
  refine extract_induction (rel := fun s t => t.buf.length < s.cfg.inLen) (fun s _ hl => hl)
    (fun s hc => Nat.lt_of_lt_of_le (Nat.succ_pos 9) (ten_le_inLen hc)) (fun s t _ _ hnext => ?again) hc
  case again => rwa [(scan_decoded s).cfg] at hnext

/-- PUSH on an open block leaves less than a frame. -/
theorem push_buf_lt {s : State} (hc : s.cfg.Ok) (hopen : s.closed = false) (chunk : List Byte) :
    (push chunk s).buf.length < s.cfg.inLen := by
  rw [push_open hopen]
  exact extract_buf_lt (s := { s with buf := s.buf ++ chunk, out := s.out ++ [.data chunk] }) hc

/-- Settles O30: PUSH completes, and EXTRACT leaves less than a frame. -/
theorem pushLeavesLessThanAFrame : Obligations.PushLeavesLessThanAFrame := by
  intro chunk s hc hopen
  have hbuf := push_buf_lt hc hopen chunk
  exact ⟨_, rfl, by omega⟩

/-! ### Each operation keeps the invariants -/

theorem push_inv {s : State} (h : s.Inv) (chunk : List Byte) : (push chunk s).Inv := by
  cases hopen : s.closed with
  | true => rwa [push_closed hopen]
  | false =>
    obtain ⟨hclosed, hq, hrc, hsst, harmed, -, hcfg, -, -⟩ := push_decoded hopen chunk
    have hbuf := push_buf_lt h.config hopen chunk
    refine ⟨?_, ?_, ?_, ?_, ?_, ?_, ?_, ?_⟩ <;> simp only [hclosed, hq, hrc, hsst, harmed, hcfg]
    · exact h.idle_iff_empty
    · exact h.empty_counter
    · exact h.processing
    · exact h.armed
    · simp [hopen]
    · omega
    · exact h.requests
    · exact h.config

theorem emit_inv {s : State} (h : s.Inv) (e : Event) : (emit e s).Inv := h.of_io s.chan _ s.refusals

theorem closeBlock_inv {s : State} (h : s.Inv) : (closeBlock s).Inv := by
  cases hopen : s.closed with
  | true =>
    rw [closeBlock_of_closed hopen]
    exact emit_inv h _
  | false =>
    rw [closeBlock_of_open hopen]
    exact ⟨by simp, by simp, by simp, by simp, by simp, by simp, by simp, h.config⟩

/-- A state in which a tick runs: open and processing, with the parts of the invariants that speak neither of
the counter nor of the timer. -/
structure Ticking (s : State) : Prop where
  closed : s.closed = false
  sst : s.sst = .processing
  buffer : s.buf.length ≤ s.cfg.inLen - 1
  requests : ∀ d ∈ s.q, requestOk s.cfg d.req
  config : s.cfg.Ok

/-- A head that waits with a counter within the budget and the timer armed meets the invariants. -/
theorem Ticking.waiting {s : State} (h : Ticking s) (hq : s.q ≠ []) (hlo : 1 ≤ s.rc)
    (hhi : s.rc ≤ s.cfg.retryBudget) (harmed : s.timerArmed = true) : s.Inv :=
  ⟨by simp [h.sst, hq], fun he => absurd he hq, fun _ => ⟨hlo, hhi, harmed⟩, fun _ => h.sst,
    by simp [h.closed], h.buffer, h.requests, h.config⟩

/-- The hand-over to what is left of the queue ends idle, or with the next head waiting (R252, R253). -/
theorem handOver_inv {s : State} (h : Ticking s) (rest : List Desc)
    (hrest : ∀ d ∈ rest, requestOk s.cfg d.req) : (handOver rest s).Inv := by
  obtain ⟨hopen, hsst, hbuf, -, hconfig⟩ := h
  cases rest with
  | nil => exact ⟨by simp [handOver], by simp [handOver], by simp [handOver], by simp [handOver],
      by simp [handOver, hopen], hbuf, by simp [handOver], hconfig⟩
  | cons d rest =>
    have hbudget : 1 ≤ s.cfg.retryBudget := one_le_retryBudget hconfig
    have hticking : Ticking (handOver (d :: rest) s) :=
      ⟨by simpa [handOver] using hopen, by simpa [handOver] using hsst, by simpa [handOver] using hbuf,
        by simpa [handOver] using hrest, by simpa [handOver] using hconfig⟩
    exact hticking.waiting (by simp [handOver]) (by simp [handOver]) (by simpa [handOver] using hbudget)
      rfl

/-- A first tick is a hand-over to the whole queue. -/
theorem tick_of_first {s : State} {d : Desc} {rest : List Desc} (hq : s.q = d :: rest) (hrc : s.rc = 0)
    (hb : 1 ≤ s.cfg.retryBudget) : tick s = handOver (d :: rest) s := by
  rw [tick, hq, tickQueue_first hrc hb]
  cases hop : requestOp d.req <;> simp [handOver, prepare, hop, hq]

/-- A tick keeps the invariants: it hands over, or its head waits again. -/
theorem tick_inv {s : State} (h : Ticking s) (hq : s.q ≠ []) (hrc : s.rc ≤ s.cfg.retryBudget) :
    (tick s).Inv := by
  obtain ⟨d, rest, hcons⟩ := List.exists_cons_of_ne_nil hq
  have hbudget : 1 ≤ s.cfg.retryBudget := one_le_retryBudget h.config
  have settled : ∀ e, (handOver rest { s with out := s.out ++ [e] }).Inv := by
    intro e
    have hticking : Ticking { s with out := s.out ++ [e] } :=
      ⟨h.closed, h.sst, h.buffer, h.requests, h.config⟩
    exact handOver_inv hticking rest (fun d' hd => h.requests d' (by simp [hcons, hd]))
  by_cases h0 : s.rc = 0
  · rw [tick_of_first hcons h0 hbudget]
    exact handOver_inv h _ (hcons ▸ h.requests)
  by_cases hlt : s.rc < s.cfg.retryBudget
  · cases ho : outcome d.req s with
    | none =>
      rw [tick, hcons, tickQueue_retry h0 hlt ho]
      exact Ticking.waiting ⟨h.closed, h.sst, h.buffer, h.requests, h.config⟩ hq (Nat.succ_pos _) hlt rfl
    | some v =>
      rw [tick, hcons, tickQueue_settle h0 hlt ho]
      exact settled _
  · rw [tick, hcons, tickQueue_exhaust h0 hbudget (by omega)]
    exact settled _

/-- While the timer is armed the block is open and processing a queue within its budget. -/
theorem State.Inv.ticking {s : State} (h : s.Inv) (harmed : s.timerArmed = true) :
    Ticking s ∧ s.q ≠ [] ∧ 1 ≤ s.rc ∧ s.rc ≤ s.cfg.retryBudget := by
  have hsst := h.armed harmed
  obtain ⟨hlo, hhi, -⟩ := h.processing hsst
  have hopen : s.closed = false := by
    by_contra hc
    obtain ⟨-, hdisarmed, -⟩ := h.closed (by simpa using hc)
    simp [harmed] at hdisarmed
  refine ⟨⟨hopen, hsst, h.buffer, h.requests, h.config⟩, fun hq => ?_, hlo, hhi⟩
  rw [h.idle_iff_empty.mpr hq] at hsst
  cases hsst

theorem fireTimer_inv {s : State} (h : s.Inv) (harmed : s.timerArmed = true) : (fireTimer s).Inv := by
  obtain ⟨hticking, hq, -, hrc⟩ := h.ticking harmed
  exact tick_inv
    ⟨hticking.closed, hticking.sst, hticking.buffer, hticking.requests, hticking.config⟩ hq hrc

theorem writeFrame_inv {s : State} (h : s.Inv) (r : Request) (id : Half) : (writeFrame r id s).Inv := by
  obtain he | ⟨harmed, he, -⟩ := writeFrame_cases r id s <;> rw [he]
  · exact h
  · exact fireTimer_inv h harmed

/-- The queue behind a request in range holds requests in range. -/
theorem requests_append {s : State} (h : s.Inv) {d : Desc} (hd : requestOk s.cfg d.req) :
    ∀ d' ∈ s.q ++ [d], requestOk s.cfg d'.req := by
  intro d' hmem
  obtain hmem | rfl := by simpa using hmem
  · exact h.requests d' hmem
  · exact hd

theorem enqueue_inv {s : State} (h : s.Inv) {d : Desc} (hd : requestOk s.cfg d.req) :
    (enqueue d s).Inv := by
  have hreq := requests_append h hd
  obtain ⟨-, he | he⟩ | ⟨hopen, hsst, he⟩ | ⟨hopen, hsst, he⟩ := enqueue_cases d s <;> rw [he]
  · exact h
  · exact emit_inv h _
  · obtain ⟨hlo, hhi, harmed⟩ := h.processing hsst
    exact Ticking.waiting ⟨hopen, hsst, h.buffer, hreq, h.config⟩ (by simp) hlo hhi harmed
  · have hrc : s.rc = 0 := h.empty_counter (h.idle_iff_empty.mp hsst)
    exact tick_inv ⟨hopen, rfl, h.buffer, hreq, h.config⟩ (by simp) (by simp [hrc])

theorem call_inv {s : State} (h : s.Inv) (tag : Token) {req : Except InputReason Request}
    (hreq : ∀ r, req = .ok r → requestOk s.cfg r) (idstr : Option Text) : (call tag req idstr s).Inv := by
  obtain ⟨e, he⟩ | ⟨r, id, hr, -, he⟩ := call_cases tag req idstr s <;> rw [he]
  · exact emit_inv h _
  · exact enqueue_inv h (hreq r hr)

/-- Every instruction that completes keeps the invariants. -/
theorem exec_inv {i : Instr} {s t : State} (h : s.Inv) (he : exec i s = .next t) : t.Inv := by
  obtain ⟨chunk, -, rfl⟩ | ⟨-, harmed, rfl⟩ | ⟨-, rfl⟩ | ⟨e, -, rfl⟩ | ⟨r, id, -, -, rfl⟩ |
    ⟨-, tag, req, idstr, hreq, -, -, -, -, rfl⟩ := exec_cases he
  · exact push_inv h chunk
  · exact fireTimer_inv h harmed
  · exact closeBlock_inv h
  · exact emit_inv h _
  · exact writeFrame_inv h r id
  · exact call_inv h tag hreq idstr

/-- Settles O10: a step waits, marks a packet, or runs an instruction on the state without its packet. -/
theorem stepKeepsTheInvariant : Obligations.StepKeepsTheInvariant := by
  intro s t h hstep
  obtain rfl | ⟨i, hi⟩ | ⟨p, r, rfl⟩ := step_cases hstep
  · exact h
  · exact exec_inv (h.of_io s.chan.tail s.out s.refusals) hi
  · exact h.of_io s.chan.tail s.out _

/-! ### Reset -/

/-- The default parameters meet the constraints of R365. -/
theorem default_ok : Config.default.Ok := by decide

/-- Settles O9: at reset the block is idle, open and empty. -/
theorem resetMeetsTheInvariant : Obligations.ResetMeetsTheInvariant :=
  ⟨by decide, fun _ => rfl, nofun, nofun, nofun, Nat.zero_le _, nofun, default_ok⟩

/-- Settles O8: the reset record, and its ten registers one by one. -/
theorem resetValues : Obligations.ResetValues := by
  refine ⟨rfl, rfl, rfl, rfl, rfl, rfl, rfl, rfl, rfl, rfl, rfl, rfl, rfl, ?_⟩
  decide

end Sys2Proof.Machine
end

