-- ==== Sys2Proof/Proofs/Decoder.lean ====
section
/-!
PROOFS. What the decoder of spec/30_encoding.md accepts: each row it reads has the accepted bytes as its
code, and two commands with one frame are one command.
-/

namespace Sys2Proof.Machine

open Sys2Proof

/-! ### The code of the row a decoder reads -/

/-- A transaction code is the code of the row it selects (R120). -/
theorem decodeTxn_code (c : Config) {tc : Byte} {o : Operands} {i : Instr}
    (h : decodeTxn tc o = .ok i) : encodeCode c i = [tc] := by
  by_cases hrow : tc ∈ ([0x01, 0x02, 0x03, 0x04, 0x10, 0x11, 0x12, 0x13, 0x14, 0x15, 0x16] : List Byte)
  · simp only [List.mem_cons, List.not_mem_nil, or_false] at hrow
    obtain rfl | rfl | rfl | rfl | rfl | rfl | rfl | rfl | rfl | rfl | rfl := hrow <;>
      · injection h with h
        exact h ▸ rfl
  · have hunknown : decodeTxn tc o = .error (.unknownCode tc) := decode_of_unknownCode c o hrow
    rw [hunknown] at h
    cases h

/-- Ten bytes an IN10 row accepts are that row's layout (R100, R103). -/
theorem decodeIn_code {c : Config} {h s d0 d1 d2 d3 d4 d5 ck t : Byte} {i : Instr}
    (hd : decodeIn c h s d0 d1 d2 d3 d4 d5 ck t = .ok i) :
    encodeCode c i = [h, s, d0, d1, d2, d3, d4, d5, ck, t] := by
  unfold decodeIn at hd
  split_ifs at hd with hmarkers hreading hconfig <;> cases hd <;>
    obtain ⟨rfl, rfl⟩ : h = c.head ∧ t = c.tail := by simpa using hmarkers
  · subst s; rfl
  all_goals
    obtain rfl := not_not.mp hconfig
    subst d0
    rfl

/-- An outbound row's code is the frame of its request (R104). -/
theorem encodeCode_outOf (c : Config) (r : Request) (id : Half) (ck : Byte) :
    encodeCode c (outOf r id ck) = outFrame c r id ck := by
  cases r <;> rfl

/-- A get row has the type, mode and argument bytes of its request (R106 to R108). -/
theorem decodeOutGet_row {c : Config} {ty arg ck : Byte} {id : Half} {i : Instr}
    (h : decodeOutGet c ty arg id ck = .ok i) :
    ∃ r, i = outOf r id ck ∧ typeModeArg c r = (ty, c.modeGet, arg) := by
  unfold decodeOutGet at h
  split_ifs at h with harg <;> cases h <;> obtain rfl := not_not.mp harg <;> subst ty
  · exact ⟨.queryReading, rfl, rfl⟩
  · exact ⟨.getMode, rfl, rfl⟩
  · exact ⟨.getFirmware, rfl, rfl⟩
  · exact ⟨.getPeriod, rfl, rfl⟩

/-- A set row has the type, mode and argument bytes of its request (R106 to R108). -/
theorem decodeOutSet_row {c : Config} {ty arg ck : Byte} {id : Half} {i : Instr}
    (h : decodeOutSet c ty arg id ck = .ok i) :
    ∃ r, i = outOf r id ck ∧ typeModeArg c r = (ty, c.modeSet, arg) := by
  unfold decodeOutSet at h
  split_ifs at h <;> cases h <;> subst ty
  · subst arg; exact ⟨.setMode .active, rfl, rfl⟩
  · subst arg; exact ⟨.setMode .query, rfl, rfl⟩
  · subst arg; exact ⟨.setSleep true, rfl, rfl⟩
  · subst arg; exact ⟨.setSleep false, rfl, rfl⟩
  · exact ⟨.setPeriod arg, rfl, rfl⟩

/-- Nineteen bytes an OUT19 row accepts are that row's layout. -/
theorem decodeOut_code {c : Config} {h s ty m arg hi lo ck t : Byte} {rsv : List Byte} {i : Instr}
    (hd : decodeOut c h s ty m arg rsv hi lo ck t = .ok i) :
    encodeCode c i = [h, s, ty, m, arg] ++ rsv ++ [hi, lo, ck, t] := by
  unfold decodeOut at hd
  split_ifs at hd with hfixed hget hset
  all_goals
    obtain ⟨rfl, rfl, rfl, rfl⟩ :
        h = c.head ∧ s = c.hostSender ∧ t = c.tail ∧ rsv = List.replicate 10 0 := by simpa using hfixed
    subst m
  · obtain ⟨r, rfl, hr⟩ := decodeOutGet_row hd
    simp [encodeCode_outOf, outFrame, outBody, hr]
  · obtain ⟨r, rfl, hr⟩ := decodeOutSet_row hd
    simp [encodeCode_outOf, outFrame, outBody, hr]

/-- Settles O2, format by format of the accepted code. -/
theorem acceptedCodeIsTheEncoding : Obligations.AcceptedCodeIsTheEncoding := by
  intro c code o i h
  unfold decode at h
  split at h
  · cases h
  · exact decodeTxn_code c h
  · exact decodeIn_code h
  · exact decodeOut_code h
  · cases h

/-- Settles O3: the decoder runs on each of the ten words. -/
theorem specWordsDecode : Obligations.SpecWordsDecode :=
  ⟨rfl, rfl, rfl, rfl, rfl, rfl, rfl, rfl, rfl, rfl⟩

/-! ### Telling commands apart -/

/-- The request and the target an outbound row holds. -/
def commandOfRow : Instr → Option (Request × Half)
  | .outQueryReading id _ => some (.queryReading, id)
  | .outSetMode m id _ => some (.setMode m, id)
  | .outGetMode id _ => some (.getMode, id)
  | .outSetSleep b id _ => some (.setSleep b, id)
  | .outGetFirmware id _ => some (.getFirmware, id)
  | .outSetPeriod p id _ => some (.setPeriod p, id)
  | .outGetPeriod id _ => some (.getPeriod, id)
  | _ => none

theorem commandOfRow_outOf (r : Request) (id : Half) (ck : Byte) :
    commandOfRow (outOf r id ck) = some (r, id) := by
  cases r <;> rfl

/-- Equal rows hold the same request and target. -/
theorem outOf_injective {r r' : Request} {id id' : Half} {ck ck' : Byte}
    (h : outOf r id ck = outOf r' id' ck') : r = r' ∧ id = id' := by
  have hcommand := congrArg commandOfRow h
  rw [commandOfRow_outOf, commandOfRow_outOf] at hcommand
  simpa using hcommand

/-- ENCODE's frame is an outbound frame of the target the id stands for. -/
theorem encodeCommand_eq_outFrame (c : Config) (r : Request) (id : Option Half) :
    encodeCommand c r id = outFrame c r (targetId c id) (outChecksum c r (targetId c id)) := rfl

/-- Settles O24: a frame decodes to the row of its request and target, so equal frames have equal rows. -/
theorem framesTellCommandsApart : Obligations.FramesTellCommandsApart := by
  intro c r r' id id' hc hd h
  rw [encodeCommand_eq_outFrame, encodeCommand_eq_outFrame] at h
  have hrow := decode_outFrame hc hd r (targetId c id) (outChecksum c r (targetId c id)) {}
  rw [h, decode_outFrame hc hd] at hrow
  injection hrow with hrow
  obtain ⟨hr, hid⟩ := outOf_injective hrow
  exact ⟨hr.symm, hid.symm⟩

end Sys2Proof.Machine
end

