-- ==== Sys2Proof/Proofs/Numerals.lean ====
section
/-!
PROOFS. The numbers the codec of spec/40_codec.md reads and writes: the checksum as a sum, reading frames,
hexadecimal ids and decimal firmware parts.
-/

namespace Sys2Proof.Machine

open Sys2Proof

/-! ### CHECKSUM -/

/-- The bytes at indices `a` to `b` sum to the sum over the indices. -/
theorem byteSum_range (B : List Byte) (a b : Nat) (hb : b < B.length) :
    byteSum ((B.take (b + 1)).drop a) = ∑ i ∈ Finset.Icc a b, (byteAt B i).toNat := by
  induction b with
  | zero =>
    cases a with
    | zero => simp [List.take_one, byteAt, List.head?_eq_getElem?, hb]
    | succ a => rw [List.drop_eq_nil_of_le (by simp), Finset.Icc_eq_empty (by omega)]; rfl
  | succ b ih =>
    by_cases ha : a ≤ b + 1
    · rw [Finset.sum_Icc_succ_top ha, ← ih (by omega), List.take_succ_eq_append_getElem hb,
        List.drop_append_of_le_length (by simp; omega), byteSum_append, byteAt_eq hb]
      simp
    · rw [Finset.Icc_eq_empty (by omega), List.drop_eq_nil_of_le (by simp; omega)]
      rfl

/-- CHECKSUM inside the sequence (R140). -/
theorem checksum_of_lt {B : List Byte} {b : Nat} (hb : b < B.length) (a : Nat) :
    checksum B a b = some (u8 (∑ i ∈ Finset.Icc a b, (byteAt B i).toNat)) := by
  rw [checksum, if_pos hb, byteSum_range B a b hb]

/-- Settles O17: inside the sequence CHECKSUM is its sum's low byte, outside it has no value. -/
theorem checksumIsTheSumModulo256 : Obligations.ChecksumIsTheSumModulo256 := by
  intro B a b
  exact ⟨fun hb => ⟨_, checksum_of_lt hb a, u8_toNat _⟩, fun hb => if_neg (by omega)⟩

/-- Sums that differ in one byte differ modulo 256. -/
theorem u8_add_ne {x y : Byte} (n : Nat) (h : x ≠ y) : u8 (x.toNat + n) ≠ u8 (y.toNat + n) := by
  intro he
  have hmod := congrArg BitVec.toNat he
  rw [u8_toNat, u8_toNat] at hmod
  have hx := x.isLt
  have hy := y.isLt
  exact h (BitVec.eq_of_toNat_eq (by omega))

/-- A change of exactly one byte of the range changes the checksum (R141 (b)). -/
theorem checksum_ne_of_one_byte {B C : List Byte} {a b k : Nat} (hlen : B.length = C.length)
    (hb : b < B.length) (hka : a ≤ k) (hkb : k ≤ b) (hk : byteAt B k ≠ byteAt C k)
    (h : ∀ i, a ≤ i → i ≤ b → i ≠ k → byteAt B i = byteAt C i) : checksum B a b ≠ checksum C a b := by
  have hmem : k ∈ Finset.Icc a b := Finset.mem_Icc.mpr ⟨hka, hkb⟩
  have hrest : ∑ i ∈ (Finset.Icc a b).erase k, (byteAt B i).toNat =
      ∑ i ∈ (Finset.Icc a b).erase k, (byteAt C i).toNat := by
    refine Finset.sum_congr rfl fun i hi => ?_
    obtain ⟨hne, hi⟩ := Finset.mem_erase.mp hi
    obtain ⟨hia, hib⟩ := Finset.mem_Icc.mp hi
    rw [h i hia hib hne]
  rw [checksum_of_lt hb, checksum_of_lt (hlen ▸ hb), ← Finset.add_sum_erase _ _ hmem,
    ← Finset.add_sum_erase _ _ hmem, hrest]
  exact fun he => u8_add_ne _ hk (Option.some.inj he)

/-- The checksum of a middle part is its own sum, whatever stands around it. -/
theorem checksum_middle (pre mid post : List Byte) (hmid : 0 < mid.length) :
    checksum (pre ++ mid ++ post) pre.length (pre.length + mid.length - 1) = some (u8 (byteSum mid)) := by
  have hcut : pre.length + mid.length - 1 + 1 = (pre ++ mid).length := by simp; omega
  rw [checksum, if_pos (by simp; omega), hcut, List.take_left', List.drop_left']
  · rfl
  · rfl

/-- Settles O18: the sum over the range decides, a sum of equal bytes but one differs, and a permutation
keeps the sum. -/
theorem checksumDependsOnItsRangeOnly : Obligations.ChecksumDependsOnItsRangeOnly := by
  refine ⟨fun B C a b hlen hb => ⟨fun h => ?same, fun k hka hkb hk h => ?changed⟩, ?permuted⟩
  case same =>
    rw [checksum_of_lt hb, checksum_of_lt (hlen ▸ hb)]
    refine congrArg (fun n => some (u8 n)) (Finset.sum_congr rfl fun i hi => ?_)
    obtain ⟨hia, hib⟩ := Finset.mem_Icc.mp hi
    rw [h i hia hib]
  case changed => exact checksum_ne_of_one_byte hlen hb hka hkb hk h
  case permuted =>
    intro pre mid mid' post hperm hmid
    have hsum : byteSum mid = byteSum mid' := (hperm.map BitVec.toNat).sum_eq
    rw [checksum_middle pre mid post hmid, hperm.length_eq,
      checksum_middle pre mid' post (hperm.length_eq ▸ hmid), hsum]

/-! ### Reading frames -/

/-- Settles O22: the frame has R100's layout, and its data bytes are the low and high bytes of the counts. -/
theorem readingFramesRoundTrip : Obligations.ReadingFramesRoundTrip := by
  intro raw25 raw10
  constructor
  · exact (validate_iff rfl _).mpr ⟨_, _, _, _, _, _, _, rfl⟩
  · rw [decodeFrame_of_sndReading rfl]
    have hcounts : decodeReading (encodeReadingFrame Config.default raw25 raw10) =
        .reading (half (hi8 raw25) (lo8 raw25)) (half (hi8 raw10) (lo8 raw10)) := rfl
    rw [hcounts, half_hi8_lo8, half_hi8_lo8]

/-! ### Sensor ids -/

/-- Either case of a hexadecimal digit reads as its value (D15). -/
theorem hexVal_digitChar {n : Nat} (hn : n < 16) {ch : Char}
    (h : ch = Nat.digitChar n ∨ ch = (Nat.digitChar n).toUpper) :
    hexVal ch = some (BitVec.ofNat 4 n) := by
  obtain rfl | rfl := h <;> interval_cases n <;> decide

/-- Four hexadecimal digits, high digit first, make the value. -/
theorem half_of_digits (v : Half) :
    BitVec.ofNat 4 (v.toNat / 4096) ++ BitVec.ofNat 4 (v.toNat / 256 % 16) ++
      BitVec.ofNat 4 (v.toNat / 16 % 16) ++ BitVec.ofNat 4 (v.toNat % 16) = v := by
  apply BitVec.eq_of_toNat_eq
  simp only [BitVec.toNat_append, BitVec.toNat_ofNat]
  have hv := v.isLt
  rw [← Nat.shiftLeft_add_eq_or_of_lt (by omega), ← Nat.shiftLeft_add_eq_or_of_lt (by omega),
    ← Nat.shiftLeft_add_eq_or_of_lt (by omega)]
  simp only [Nat.shiftLeft_eq]
  omega

/-- A character is a hexadecimal digit, in either case. -/
def isHexDigit (ch : Char) : Prop :=
  ('0'.toNat ≤ ch.toNat ∧ ch.toNat ≤ '9'.toNat) ∨ ('a'.toNat ≤ ch.toNat ∧ ch.toNat ≤ 'f'.toNat) ∨
    ('A'.toNat ≤ ch.toNat ∧ ch.toNat ≤ 'F'.toNat)

/-- Exactly the hexadecimal digits have a value. -/
theorem hexVal_isSome_iff (ch : Char) : (hexVal ch).isSome = true ↔ isHexDigit ch := by
  have hbounds : '0'.toNat = 48 ∧ '9'.toNat = 57 ∧ 'a'.toNat = 97 ∧ 'f'.toNat = 102 ∧
      'A'.toNat = 65 ∧ 'F'.toNat = 70 := by decide
  simp only [isHexDigit, hbounds, hexVal]
  split_ifs <;> simp <;> omega

/-- Four characters parse when all four have a value. -/
theorem parseId_malformed_iff (a b c d : Char) :
    parseId (some [a, b, c, d]) = .error .malformedId ↔
      ¬ ((hexVal a).isSome = true ∧ (hexVal b).isSome = true ∧ (hexVal c).isSome = true ∧
        (hexVal d).isSome = true) := by
  simp only [parseId, Option.isSome_iff_exists]
  split
  · rename_i ha hb hc hd
    simp [ha, hb, hc, hd]
  · rename_i hnone
    refine iff_of_true rfl ?_
    rintro ⟨⟨_, ha⟩, ⟨_, hb⟩, ⟨_, hc⟩, ⟨_, hd⟩⟩
    exact hnone _ _ _ _ ha hb hc hd

/-- Any other number of characters is malformed. -/
theorem parseId_of_length {text : Text} (h : text.length ≠ 4) :
    parseId (some text) = .error .malformedId := by
  match text, h with
  | [], _ | [_], _ | [_, _], _ | [_, _, _], _ | _ :: _ :: _ :: _ :: _ :: _, _ => rfl
  | [_, _, _, _], h => exact absurd rfl h

/-- Settles O25: a numeral parses digit by digit, and what is no four digits does not parse. -/
theorem sensorIdGrammar : Obligations.SensorIdGrammar := by
  refine ⟨?numeral, fun text => ?malformed, rfl⟩
  case numeral =>
    intro v text
    dsimp only
    intro h
    have hv := v.isLt
    match text, h with
    | [_, _, _, _], .cons ha (.cons hb (.cons hc (.cons hd .nil))) =>
      simp only [parseId, hexVal_digitChar (by omega) ha, hexVal_digitChar (by omega) hb,
        hexVal_digitChar (by omega) hc, hexVal_digitChar (by omega) hd, half_of_digits]
  case malformed =>
    by_cases hlen : text.length = 4
    · match text, hlen with
      | [a, b, c, d], _ =>
        rw [parseId_malformed_iff]
        simp [hexVal_isSome_iff, isHexDigit]
    · simp [parseId_of_length hlen, hlen]

/-! ### Firmware parts -/

/-- A decimal digit's character code is that of '0' and its value. -/
theorem digit_toNat {n : Nat} (hn : n < 10) : (digit n).toNat = '0'.toNat + n := by
  interval_cases n <;> rfl

/-- It lies between '0' and '9'. -/
theorem digit_isDecimal {n : Nat} (hn : n < 10) :
    '0'.toNat ≤ (digit n).toNat ∧ (digit n).toNat ≤ '9'.toNat := by
  have hspan : '0'.toNat + 9 = '9'.toNat := rfl
  rw [digit_toNat hn]
  omega

/-- And it reads as its value; 48 is the code of '0'. -/
theorem digit_value {n : Nat} (hn : n < 10) : (digit n).toNat - 48 = n := by
  have hzero : '0'.toNat = 48 := rfl
  rw [digit_toNat hn, hzero, Nat.add_sub_cancel_left]

/-- A byte below 100 has two digits, any other three (D13). -/
theorem pad2_of_lt {b : Byte} (h : b.toNat < 100) :
    pad2 b = [digit (b.toNat / 10), digit (b.toNat % 10)] := if_pos h

theorem pad2_of_ge {b : Byte} (h : ¬ b.toNat < 100) :
    pad2 b = [digit (b.toNat / 100), digit (b.toNat / 10 % 10), digit (b.toNat % 10)] := if_neg h

/-- Settles O26: the numeral's digits are those of the byte by division, two or three of them. -/
theorem firmwarePartsRenderInDecimal : Obligations.FirmwarePartsRenderInDecimal := by
  refine ⟨fun f => by simp [renderFw], fun b => ?_⟩
  have hb := b.isLt
  have hones : b.toNat % 10 < 10 := by omega
  by_cases h : b.toNat < 100
  · have htens : b.toNat / 10 < 10 := by omega
    rw [pad2_of_lt h, if_pos h]
    refine ⟨?value, ?digits, rfl⟩
    case value =>
      have hvalue : b.toNat % 10 + 10 * (b.toNat / 10) = b.toNat := by omega
      simpa [Nat.ofDigits_cons, digit_value htens, digit_value hones] using hvalue
    case digits => simpa using And.intro (digit_isDecimal htens) (digit_isDecimal hones)
  · have hhundreds : b.toNat / 100 < 10 := by omega
    have htens : b.toNat / 10 % 10 < 10 := by omega
    rw [pad2_of_ge h, if_neg h]
    refine ⟨?value, ?digits, rfl⟩
    case value =>
      have hvalue : b.toNat % 10 + 10 * (b.toNat / 10 % 10 + 10 * (b.toNat / 100)) = b.toNat := by omega
      simpa [Nat.ofDigits_cons, digit_value hhundreds, digit_value htens, digit_value hones] using hvalue
    case digits =>
      simpa using And.intro (digit_isDecimal hhundreds)
        (And.intro (digit_isDecimal htens) (digit_isDecimal hones))

end Sys2Proof.Machine
end

