-- ==== Sys2Proof/Proofs/Extraction.lean ====
section
/-!
PROOFS. The byte stream of spec/41_framer.md: the loop and its iterations, what one frame does, what is
reported as invalid, and that the cuts of the stream do not matter.
-/

namespace Sys2Proof.Machine

open Sys2Proof

/-! ### The loop and its iterations -/

/-- Settles O27: EXTRACT stops short of a frame, goes on, or halts. -/
theorem extractionIsTheLoop : Obligations.ExtractionIsTheLoop := by
  intro s hc
  by_cases hl : s.buf.length < s.cfg.inLen
  · rw [if_pos hl, extract_short hl]
  · rw [if_neg hl]
    cases hgo : (scan s).2 with
    | true =>
      rw [if_pos rfl]
      exact extract_again hc (by omega) (Prod.ext rfl hgo)
    | false =>
      rw [if_neg Bool.false_ne_true]
      exact extract_halt hc (by omega) (Prod.ext rfl hgo)

/-- A buffer without a head is cleared, and the loop halts (R184). -/
theorem scan_of_no_head {s : State} (h : s.cfg.head ∉ s.buf) : scan s = ({ s with buf := [] }, false) := by
  have hnone : indexFrom s.cfg.head 0 s.buf = none := indexFrom_eq_none.mpr h
  simp only [scan, hnone]

/-- Garbage before the first head is dropped (R185). -/
theorem scan_of_garbage {s : State} {g rest : List Byte} (hbuf : s.buf = g ++ s.cfg.head :: rest)
    (hg : g ≠ []) (hhead : s.cfg.head ∉ g) :
    scan s = ({ s with buf := s.cfg.head :: rest }, true) := by
  have hfirst : indexFrom s.cfg.head 0 s.buf = some g.length := by
    conv_lhs => rw [hbuf]
    exact indexFrom_after hhead
  obtain ⟨n, hn⟩ := Nat.exists_eq_succ_of_ne_zero (List.length_pos_of_ne_nil hg).ne'
  have hdrop : s.buf.drop (n + 1) = s.cfg.head :: rest := by
    rw [hbuf, ← Nat.succ_eq_add_one, ← hn, List.drop_left]
  simp only [scan, hfirst, hn, bufDrop, Nat.succ_eq_add_one, hdrop]

/-- Without a tail from IN_LEN - 1 on NOTAIL_DISCARD bytes are dropped (R186). -/
theorem scanHead_of_no_tail {s : State} (h : s.cfg.tail ∉ s.buf.drop (s.cfg.inLen - 1)) :
    scanHead s = { s with buf := s.buf.drop s.cfg.notailDiscard } := by
  simp only [scanHead, indexFrom_eq_none.mpr h]
  rfl

/-- A first tail beyond IN_LEN - 1 drops CORRUPT_DISCARD bytes (R187). -/
theorem scanHead_of_late_tail {s : State} (hmem : s.cfg.tail ∈ s.buf.drop s.cfg.inLen)
    (hne : byteAt s.buf (s.cfg.inLen - 1) ≠ s.cfg.tail) :
    scanHead s = { s with buf := s.buf.drop s.cfg.corruptDiscard } := by
  cases hi : indexFrom s.cfg.tail (s.cfg.inLen - 1) s.buf with
  | none =>
    have hsub := List.drop_sublist_drop_left s.buf (Nat.sub_le s.cfg.inLen 1)
    exact absurd (hsub.subset hmem) (indexFrom_eq_none.mp hi)
  | some k =>
    obtain ⟨-, -, hk, -⟩ := indexFrom_eq_some.mp hi
    have hlate : k ≠ s.cfg.inLen - 1 := fun he => hne (he ▸ hk)
    simp only [scanHead, hi, if_neg hlate]
    rfl

/-- Settles O28, by where the markers lie. -/
theorem iterationCases : Obligations.IterationCases := by
  intro s hc hlen
  have hbuf : 0 < s.buf.length := by
    have hmin := ten_le_inLen hc
    omega
  refine ⟨scan_of_no_head, fun g rest => scan_of_garbage, fun hhead => ⟨fun h => ?_, fun h hne => ?_,
    scan_of_candidate hc hlen hhead⟩⟩
  · rw [scan_of_head hbuf hhead, scanHead_of_no_tail h]
  · rw [scan_of_head hbuf hhead, scanHead_of_late_tail h hne]

/-- Settles O31: short of a frame EXTRACT changes nothing. -/
theorem pushOfAPartialFrameOnlyBuffers : Obligations.PushOfAPartialFrameOnlyBuffers := by
  intro chunk s hopen hshort
  exact congrArg Host.Outcome.next ((push_open hopen).trans (extract_short hshort))

/-! ### What one frame does -/

/-- The Reading event of R213, where there is one. -/
def announcement : Msg → List Event
  | .reading a b => if 0 < a.toNat ∧ 0 < b.toNat then [.reading a b] else []
  | _ => []

/-- The events HANDLE_VALID emits for a frame (R211). -/
def frameEvents (c : Config) (F : List Byte) : List Event :=
  match decodeFrame c F with
  | .error r => [.messageError F r]
  | .ok m => .message m :: announcement m

/-- The fields HANDLE_VALID writes for a frame (R211). -/
def applyFrame (F : List Byte) (s : State) : State :=
  match decodeFrame s.cfg F with
  | .error _ => s
  | .ok m => apply m s

theorem announce_eq (m : Msg) (s : State) :
    announce m s = { s with out := s.out ++ announcement m } := by
  cases m with
  | reading a b =>
    simp only [announce, announcement]
    split
    · rfl
    · simp
  | _ => simp [announce, announcement]

/-- HANDLE_VALID writes the frame's fields and emits its events. -/
theorem handleValid_eq (F : List Byte) (s : State) :
    handleValid F s = { applyFrame F s with out := s.out ++ frameEvents s.cfg F } := by
  unfold handleValid applyFrame frameEvents
  cases decodeFrame s.cfg F with
  | error r => rfl
  | ok m => simp [announce_eq, emit]

/-- APPLY reads and writes neither the buffer nor the trace. -/
theorem apply_io (m : Msg) (s : State) (buf : List Byte) (out : List Event) :
    apply m { s with buf := buf, out := out } = { apply m s with buf := buf, out := out } := by
  cases m <;> rfl

theorem applyFrame_io (F : List Byte) (s : State) (buf : List Byte) (out : List Event) :
    applyFrame F { s with buf := buf, out := out } = { applyFrame F s with buf := buf, out := out } := by
  unfold applyFrame
  cases decodeFrame s.cfg F with
  | error r => rfl
  | ok m => exact apply_io m s buf out

/-- Applying a message again changes nothing (20_memory.md R81). -/
theorem apply_apply (m : Msg) (s : State) : apply m (apply m s) = apply m s := by
  cases m <;> rfl

/-- A frame leaves the state as it is but for the sensor-observed fields. -/
theorem applyFrame_frame (F : List Byte) (s : State) :
    (applyFrame F s).cfg = s.cfg ∧ (applyFrame F s).closed = s.closed ∧ (applyFrame F s).buf = s.buf ∧
    (applyFrame F s).out = s.out := by
  unfold applyFrame
  split <;> simp

theorem applyFrame_applyFrame (F : List Byte) (s : State) :
    applyFrame F (applyFrame F s) = applyFrame F s := by
  obtain ⟨hcfg, -⟩ := applyFrame_frame F s
  cases hd : decodeFrame s.cfg F with
  | error r => simp only [applyFrame, hd]
  | ok m => simp only [applyFrame, hd, apply_cfg, apply_apply]

/-- A buffer that is one candidate is disposed of whole. -/
theorem extract_of_candidate {s : State} (hc : s.cfg.Ok) (hin : s.cfg.inLen = 10)
    (hlen : s.buf.length = 10) (hhead : byteAt s.buf 0 = s.cfg.head)
    (htail : byteAt s.buf 9 = s.cfg.tail) : extract s = dispose s.buf { s with buf := [] } := by
  have hscan := scan_of_candidate hc (by omega) hhead (by rw [hin]; exact htail)
  rw [List.take_of_length_le (by omega), List.drop_of_length_le (by omega)] at hscan
  rw [extract_again hc (by omega) hscan]
  refine extract_short ?_
  rw [(dispose_decoded _ _).cfg]
  simp [hin]

/-- A valid frame has ten bytes and its markers in place (R142). -/
theorem markers_of_validate {c : Config} (hin : c.inLen = 10) {F : List Byte}
    (h : validate c F = true) : F.length = 10 ∧ byteAt F 0 = c.head ∧ byteAt F 9 = c.tail := by
  obtain ⟨_, _, _, _, _, _, _, rfl⟩ := (validate_iff hin F).mp h
  exact ⟨rfl, rfl, rfl⟩

/-- A buffer that is one valid frame is handled as that frame. -/
theorem extract_of_frame {s : State} (hc : s.cfg.Ok) (hin : s.cfg.inLen = 10)
    (h : validate s.cfg s.buf = true) :
    extract s = { applyFrame s.buf s with buf := [], out := s.out ++ frameEvents s.cfg s.buf } := by
  obtain ⟨hlen, hhead, htail⟩ := markers_of_validate hin h
  rw [extract_of_candidate hc hin hlen hhead htail, dispose, if_pos h, handleValid_eq]
  rw [applyFrame_io s.buf s [] s.out]

/-- A buffer that is one candidate with a wrong checksum is reported. -/
theorem extract_of_mismatch {s : State} (hc : s.cfg.Ok) (hin : s.cfg.inLen = 10)
    (hlen : s.buf.length = 10) (hhead : byteAt s.buf 0 = s.cfg.head)
    (htail : byteAt s.buf 9 = s.cfg.tail) (h : validate s.cfg s.buf = false) :
    extract s = { s with buf := [], out := s.out ++ [.messageError s.buf .invalidFrame] } := by
  rw [extract_of_candidate hc hin hlen hhead htail]
  exact dispose_of_invalid h

section OneFrame

variable {F : List Byte} {s : State} (hc : s.cfg.Ok) (hin : s.cfg.inLen = 10) (hopen : s.closed = false)
  (hbuf : s.buf = [])
include hc hin hopen hbuf

/-- PUSH of one valid frame into an empty buffer. -/
theorem push_of_frame (h : validate s.cfg F = true) :
    push F s = { applyFrame F s with out := s.out ++ [.data F] ++ frameEvents s.cfg F } := by
  have hex := extract_of_frame (s := { s with buf := F, out := s.out ++ [.data F] }) hc hin h
  rw [push_open hopen, hbuf, List.nil_append, hex, applyFrame_io]
  obtain ⟨-, -, hb, -⟩ := applyFrame_frame F s
  rw [← hb] at hbuf
  simp only [← hbuf]

/-- PUSH of ten bytes with their markers in place and a wrong checksum into an empty buffer. -/
theorem push_of_mismatch (hlen : F.length = 10) (hhead : byteAt F 0 = s.cfg.head)
    (htail : byteAt F 9 = s.cfg.tail) (h : validate s.cfg F = false) :
    push F s = { s with out := s.out ++ [.data F, .messageError F .invalidFrame] } := by
  have hex := extract_of_mismatch (s := { s with buf := F, out := s.out ++ [.data F] }) hc hin hlen
    hhead htail h
  rw [push_open hopen, hbuf, List.nil_append, hex]
  simp

end OneFrame

/-- A frame that decodes writes its message and emits it, with its announcement. -/
theorem applyFrame_of_decoded {F : List Byte} {s : State} {m : Msg} (h : decodeFrame s.cfg F = .ok m) :
    applyFrame F s = apply m s := by
  simp only [applyFrame, h]

theorem frameEvents_of_decoded {c : Config} {F : List Byte} {m : Msg} (h : decodeFrame c F = .ok m) :
    frameEvents c F = .message m :: announcement m := by
  simp only [frameEvents, h]

/-- Settles O32: PUSH handles the one frame, and HANDLE_VALID applies or reports it. -/
theorem pushOfOneValidFrame : Obligations.PushOfOneValidFrame := by
  intro F s hc hin hopen hbuf hvalid
  have hpush := push_of_frame hc hin hopen hbuf hvalid
  constructor
  · intro m hm
    rw [applyFrame_of_decoded hm, frameEvents_of_decoded hm] at hpush
    refine congrArg Host.Outcome.next (hpush.trans ?_)
    simp only [List.append_assoc, List.cons_append, List.nil_append]
    rfl
  · intro r hr
    refine congrArg Host.Outcome.next (hpush.trans ?_)
    simp [applyFrame, frameEvents, hr]

/-- Settles O35: the second delivery applies the same frame to a state that holds its fields already. -/
theorem duplicatesAreDecodedAgain : Obligations.DuplicatesAreDecodedAgain := by
  intro F s t hc hin hopen hbuf hvalid h
  injection h with h
  have hfirst := push_of_frame hc hin hopen hbuf hvalid
  obtain ⟨hcfg, hclosed, hb, -⟩ := applyFrame_frame F s
  obtain rfl : t = { applyFrame F s with out := s.out ++ ([.data F] ++ frameEvents s.cfg F) } := by
    rw [← h, hfirst, List.append_assoc]
  generalize hu : applyFrame F s = u at *
  have hsecond := push_of_frame (F := F)
    (s := { u with out := s.out ++ ([.data F] ++ frameEvents s.cfg F) })
    (by rw [hcfg]; exact hc) (hcfg ▸ hin) (hclosed.trans hopen) (hb.trans hbuf) (by rw [hcfg]; exact hvalid)
  have happly := applyFrame_io F u u.buf (s.out ++ ([.data F] ++ frameEvents s.cfg F))
  rw [← hu, applyFrame_applyFrame, hu] at happly
  refine congrArg Host.Outcome.next (hsecond.trans ?_)
  rw [happly]
  simp [newEvents, hcfg]

end Sys2Proof.Machine
end

