-- ==== Sys2Proof/Proofs/Stream.lean ====
section
/-!
PROOFS. What a whole stream of chunks does (spec/41_framer.md section 3): which candidates are reported as
invalid, and how garbage and a frame are handled under every split.
-/

namespace Sys2Proof.Machine

open Sys2Proof

/-! ### Invalid frames are checksum mismatches -/

/-- An event that reports an invalid frame only for ten bytes with their markers in place and a wrong
checksum (R196). -/
def MismatchOnly (c : Config) (e : Event) : Prop :=
  ∀ cand, e = .messageError cand .invalidFrame →
    cand.length = 10 ∧ byteAt cand 0 = c.head ∧ byteAt cand 9 = c.tail ∧
      checksum cand 2 7 ≠ some (byteAt cand 8)

/-- The trace gains events of that kind only. -/
def AddsMismatchOnly (s t : State) : Prop :=
  ∃ es, t.out = s.out ++ es ∧ ∀ e ∈ es, MismatchOnly s.cfg e

/-- DECODE_CONFIG fails for an unknown command only (R160). -/
theorem decodeConfig_error {c : Config} {F : List Byte} {r : MsgReason}
    (h : decodeConfig c F = .error r) : r = .unknownCommand := by
  dsimp only [decodeConfig] at h
  split_ifs at h
  cases h
  rfl

/-- The decoder's reasons are not InvalidFrame (R160, R161). -/
theorem decodeFrame_error_ne {c : Config} {F : List Byte} {r : MsgReason}
    (h : decodeFrame c F = .error r) : r ≠ .invalidFrame := by
  unfold decodeFrame at h
  split_ifs at h
  · rw [decodeConfig_error h]
    exact nofun
  · cases h
    exact nofun

/-- No event of a valid frame reports an invalid one. -/
theorem frameEvents_mismatchOnly (c : Config) (F : List Byte) : ∀ e ∈ frameEvents c F, MismatchOnly c e := by
  rintro e he cand rfl
  unfold frameEvents at he
  cases hd : decodeFrame c F with
  | error r =>
    rw [hd] at he
    obtain ⟨-, rfl⟩ : cand = F ∧ .invalidFrame = r := by simpa using he
    exact absurd rfl (decodeFrame_error_ne hd)
  | ok m =>
    rw [hd] at he
    cases m with
    | reading a b =>
      simp only [announcement] at he
      split at he <;> simp at he
    | _ => simp [announcement] at he

/-- A candidate that is reported as invalid has a wrong checksum. -/
theorem dispose_mismatchOnly {cand : List Byte} {s : State} (hin : s.cfg.inLen = 10)
    (hlen : cand.length = 10) (hhead : byteAt cand 0 = s.cfg.head) (htail : byteAt cand 9 = s.cfg.tail) :
    AddsMismatchOnly s (dispose cand s) := by
  cases hv : validate s.cfg cand with
  | true =>
    refine ⟨frameEvents s.cfg cand, ?_, frameEvents_mismatchOnly s.cfg cand⟩
    rw [dispose, if_pos hv, handleValid_eq]
  | false =>
    refine ⟨[.messageError cand .invalidFrame], by rw [dispose_of_invalid hv], ?_⟩
    intro e he cand' he'
    obtain rfl : cand = cand' := by simpa [List.mem_singleton.mp he] using he'
    refine ⟨hlen, hhead, htail, fun hck => ?_⟩
    simp [validate, hlen, hin, hhead, htail, hck] at hv

/-- An iteration changes the buffer only, or disposes of ten bytes with their markers in place. -/
theorem scan_discards_or_disposes (s : State) :
    (∃ b, (scan s).1 = { s with buf := b }) ∨
    (byteAt s.buf 0 = s.cfg.head ∧ byteAt s.buf (s.cfg.inLen - 1) = s.cfg.tail ∧
      (scan s).1 = dispose (s.buf.take s.cfg.inLen) { s with buf := s.buf.drop s.cfg.inLen }) := by
  unfold scan
  split
  · exact .inl ⟨_, rfl⟩
  · rename_i hfirst
    obtain ⟨-, -, hhead, -⟩ := indexFrom_eq_some.mp hfirst
    unfold scanHead
    split
    · exact .inl ⟨_, rfl⟩
    · rename_i htail
      split
      · rename_i hk
        obtain ⟨-, -, htail, -⟩ := indexFrom_eq_some.mp htail
        exact .inr ⟨hhead, hk ▸ htail, rfl⟩
      · exact .inl ⟨_, rfl⟩
  · exact .inl ⟨_, rfl⟩

/-- A byte of the first bytes is the byte of the whole. -/
theorem byteAt_take {B : List Byte} {i n : Nat} (h : i < n) : byteAt (B.take n) i = byteAt B i := by
  simp [byteAt, List.getD, List.getElem?_take_of_lt h]

theorem scan_mismatchOnly {s : State} (hin : s.cfg.inLen = 10) (hlen : s.cfg.inLen ≤ s.buf.length) :
    AddsMismatchOnly s (scan s).1 := by
  obtain ⟨b, h⟩ | ⟨hhead, htail, h⟩ := scan_discards_or_disposes s
  · exact ⟨[], by simp [h], by simp⟩
  · rw [h]
    rw [hin] at hlen htail ⊢
    exact dispose_mismatchOnly (s := { s with buf := s.buf.drop 10 }) hin (by simpa using hlen)
      (by rw [byteAt_take (by decide)]; exact hhead) (by rw [byteAt_take (by decide)]; exact htail)

theorem extract_mismatchOnly {s : State} (hc : s.cfg.Ok) :
    s.cfg.inLen = 10 → AddsMismatchOnly s (extract s) := by
  refine extract_induction (rel := fun s t => s.cfg.inLen = 10 → AddsMismatchOnly s t)
    (fun s _ _ _ => ⟨[], by simp, by simp⟩) (fun s _ _ => ⟨[], by simp, by simp⟩)
    (fun s t _ hlen hnext hin => ?_) hc
  have hcfg := (scan_decoded s).cfg
  obtain ⟨es, hes, hall⟩ := scan_mismatchOnly hin hlen
  obtain ⟨fs, hfs, hall'⟩ := hnext (hcfg ▸ hin)
  refine ⟨es ++ fs, by rw [hfs, hes, List.append_assoc], fun e he => ?_⟩
  obtain he | he := List.mem_append.mp he
  · exact hall e he
  · exact hcfg ▸ hall' e he

/-- Settles O33: the raw-data event reports nothing, and the iterations report mismatches only. -/
theorem invalidFrameMeansChecksumMismatch : Obligations.InvalidFrameMeansChecksumMismatch := by
  intro chunk cand s t hc hin h hmem
  obtain rfl : push chunk s = t := Host.Outcome.next.inj h
  cases hclosed : s.closed with
  | true => simp [push_closed hclosed, newEvents] at hmem
  | false =>
    obtain ⟨es, hout, hes⟩ := extract_mismatchOnly
      (s := { s with buf := s.buf ++ chunk, out := s.out ++ [.data chunk] }) hc hin
    rw [newEvents, push_open hclosed, hout, List.append_assoc, List.drop_left] at hmem
    obtain hmem : Event.messageError cand .invalidFrame ∈ es := by simpa using hmem
    exact hes _ hmem cand rfl

/-! ### Resynchronization -/

/-- The trace without its raw-data events. -/
def withoutData (es : List Event) : List Event := es.filter (fun e => !isData e)

theorem withoutData_data (es fs : List Event) (chunk : List Byte) :
    withoutData (es ++ [.data chunk] ++ fs) = withoutData (es ++ fs) := by
  simp [withoutData, isData]

/-- A valid frame starts with the head marker. -/
theorem eq_head_cons_of_validate {c : Config} (hin : c.inLen = 10) {F : List Byte}
    (h : validate c F = true) : ∃ tl, F = c.head :: tl := by
  obtain ⟨_, _, _, _, _, _, _, rfl⟩ := (validate_iff hin F).mp h
  exact ⟨_, rfl⟩

section Stream

variable {F : List Byte} {s : State} (hc : s.cfg.Ok) (hin : s.cfg.inLen = 10)
  (hF : validate s.cfg F = true)
include hc hin hF

/-- The loop on a part of a frame that starts the buffer: it waits for the rest, or handles the frame. -/
theorem extract_in_frame {rest : List Byte} (hstream : s.buf ++ rest = F) :
    (extract s = s ∧ s.buf.length < 10) ∨
    (rest = [] ∧ extract s = { applyFrame F s with buf := [], out := s.out ++ frameEvents s.cfg F }) := by
  by_cases hl : s.buf.length < 10
  · exact .inl ⟨extract_short (hin ▸ hl), hl⟩
  · obtain ⟨hlen, -⟩ := markers_of_validate hin hF
    have hrest : rest = [] := by
      rw [← hstream, List.length_append] at hlen
      exact List.length_eq_zero_iff.mp (by omega)
    obtain rfl : s.buf = F := by rw [← hstream, hrest, List.append_nil]
    exact .inr ⟨hrest, extract_of_frame hc hin hF⟩

/-- The loop on a part of garbage and a frame: it drops garbage, or handles the frame. -/
theorem extract_in_stream {G rest : List Byte} (hG : s.cfg.head ∉ G) (hstream : s.buf ++ rest = G ++ F) :
    (∃ b G', extract s = { s with buf := b } ∧ b.length < 10 ∧ s.cfg.head ∉ G' ∧ b ++ rest = G' ++ F) ∨
    (rest = [] ∧ extract s = { applyFrame F s with buf := [], out := s.out ++ frameEvents s.cfg F }) := by
  by_cases hl : s.buf.length < 10
  · exact .inl ⟨s.buf, G, extract_short (hin ▸ hl), hl, hG, hstream⟩
  have hlen : s.cfg.inLen ≤ s.buf.length := by omega
  have cleared : s.cfg.head ∉ s.buf → extract s = { s with buf := [] } := fun h =>
    extract_halt hc hlen (scan_of_no_head h)
  obtain ⟨tl, htl⟩ := eq_head_cons_of_validate hin hF
  obtain ⟨G', rfl, hrest⟩ | ⟨F', hbuf, hF'⟩ := List.append_eq_append_iff.mp hstream
  · have hnone : s.cfg.head ∉ s.buf := fun h => hG (List.mem_append_left _ h)
    exact .inl ⟨[], G', cleared hnone, by simp, fun h => hG (List.mem_append_right _ h), hrest⟩
  cases F' with
  | nil =>
    have hnone : s.cfg.head ∉ s.buf := by simpa [hbuf] using hG
    exact .inl ⟨[], [], cleared hnone, by simp, by simp, by simpa using hF'.symm⟩
  | cons b F' =>
    obtain rfl : s.cfg.head = b := by
      rw [htl] at hF'
      exact (List.cons.inj hF').1
    have haligned : extract s = extract { s with buf := s.cfg.head :: F' } := by
      by_cases hnil : G = []
      · rw [hnil, List.nil_append] at hbuf
        rw [← hbuf]
      · exact extract_again hc hlen (scan_of_garbage hbuf hnil hG)
    rw [haligned]
    obtain ⟨hsame, hshort⟩ | ⟨hrest, hdone⟩ :=
      extract_in_frame (s := { s with buf := s.cfg.head :: F' }) hc hin hF hF'.symm
    · exact .inl ⟨_, [], hsame, hshort, by simp, hF'.symm⟩
    · refine .inr ⟨hrest, hdone.trans ?_⟩
      rw [applyFrame_io F s _ s.out]

end Stream

/-- Empty chunks after the frame add their raw-data events only. -/
theorem pushAll_of_empty {chunks : List (List Byte)} {s : State} (hin : s.cfg.inLen = 10)
    (hopen : s.closed = false) (hbuf : s.buf = []) (hchunks : chunks.flatten = []) :
    ∃ o, pushAll chunks s = { s with out := o } ∧ withoutData o = withoutData s.out := by
  induction chunks generalizing s with
  | nil => exact ⟨s.out, rfl, rfl⟩
  | cons chunk chunks ih =>
    obtain ⟨rfl, hrest⟩ : chunk = [] ∧ chunks.flatten = [] := by simpa using hchunks
    have hpush : push [] s = { s with out := s.out ++ [.data []] } := by
      rw [push_open hopen, List.append_nil, extract_short (by simp [hbuf, hin])]
    obtain ⟨o, ho, hdata⟩ := ih (s := { s with out := s.out ++ [.data []] }) hin hopen hbuf hrest
    have hquiet := withoutData_data s.out [] []
    rw [List.append_nil, List.append_nil] at hquiet
    refine ⟨o, ?_, hdata.trans hquiet⟩
    rw [← ho, ← hpush]
    rfl

/-- Garbage and a frame, from any point of the stream on: the frame is handled, and its events are the only
ones beside the raw data. -/
theorem pushAll_of_stream {F : List Byte} {chunks : List (List Byte)} {s : State} {G : List Byte}
    (hc : s.cfg.Ok) (hin : s.cfg.inLen = 10) (hopen : s.closed = false) (hF : validate s.cfg F = true)
    (hG : s.cfg.head ∉ G) (hshort : s.buf.length < 10) (hstream : s.buf ++ chunks.flatten = G ++ F) :
    ∃ o, pushAll chunks s = { applyFrame F s with buf := [], out := o } ∧
      withoutData o = withoutData (s.out ++ frameEvents s.cfg F) := by
  induction chunks generalizing s G with
  | nil =>
    obtain ⟨hlen, -⟩ := markers_of_validate hin hF
    have hbuf : s.buf.length = G.length + F.length := by simpa using congrArg List.length hstream
    omega
  | cons chunk chunks ih =>
    have hall : pushAll (chunk :: chunks) s = pushAll chunks (push chunk s) := rfl
    rw [hall, push_open hopen]
    obtain ⟨b, G', hpart, hb, hG', hrest⟩ | ⟨hrest, hdone⟩ :=
      extract_in_stream (s := { s with buf := s.buf ++ chunk, out := s.out ++ [.data chunk] })
        (rest := chunks.flatten) hc hin hF hG (by simpa using hstream)
    · rw [hpart]
      obtain ⟨o, ho, hdata⟩ := ih (s := { s with buf := b, out := s.out ++ [.data chunk] })
        hc hin hopen hF hG' hb hrest
      refine ⟨o, ?_, hdata.trans (withoutData_data ..)⟩
      rw [ho, applyFrame_io]
    · rw [hdone, applyFrame_io]
      obtain ⟨hcfg, hclosed, -⟩ := applyFrame_frame F s
      obtain ⟨o, ho, hdata⟩ := pushAll_of_empty
        (s := { applyFrame F s with
          buf := [], out := s.out ++ [.data chunk] ++ frameEvents s.cfg F })
        (hcfg ▸ hin) (hclosed.trans hopen) rfl hrest
      exact ⟨o, ho, hdata.trans (withoutData_data ..)⟩

/-- Settles O34: the stream ends with the frame handled, whose fields and events are HANDLE_VALID's. -/
theorem resynchronizesUnderEverySplit : Obligations.ResynchronizesUnderEverySplit := by
  intro chunks G F s hc hin hopen hbuf hstream hG hF
  obtain ⟨o, ho, hdata⟩ := pushAll_of_stream hc hin hopen hF hG (by simp [hbuf])
    (by rw [hbuf, List.nil_append, hstream])
  obtain ⟨-, -, hb, -⟩ := applyFrame_frame F s
  rw [ho, handleValid_eq]
  rw [hbuf] at hb
  exact ⟨by simp only [← hb], hdata⟩

end Sys2Proof.Machine
end

