-- ==== Sys2Proof/Proofs/Inbound.lean ====
section
/-!
PROOFS. The five inbound frames on an open block (spec/42_device_state.md section 1) and the register view
(spec/10_state.md section 6).
-/

namespace Sys2Proof.Machine

open Sys2Proof

/-! ### Frames into an empty buffer -/

/-- The firmware type selects the firmware message when it is not an earlier type too (R160). -/
theorem decodeConfig_of_cmdFirmware {c : Config} (hm : c.cmdFirmware ≠ c.cmdMode)
    (hp : c.cmdFirmware ≠ c.cmdPower) {F : List Byte} (h : byteAt F 2 = c.cmdFirmware) :
    decodeConfig c F = .ok (.firmware (byteAt F 3) (byteAt F 4) (byteAt F 5)) :=
  (if_neg (h.trans_ne hm)).trans ((if_neg (h.trans_ne hp)).trans (if_pos h))

/-- The period type selects the period message when it is not an earlier type too (R160). -/
theorem decodeConfig_of_cmdPeriod {c : Config} (hm : c.cmdPeriod ≠ c.cmdMode)
    (hp : c.cmdPeriod ≠ c.cmdPower) (hf : c.cmdPeriod ≠ c.cmdFirmware) {F : List Byte}
    (h : byteAt F 2 = c.cmdPeriod) : decodeConfig c F = .ok (.period (byteAt F 4)) :=
  (if_neg (h.trans_ne hm)).trans
    ((if_neg (h.trans_ne hp)).trans ((if_neg (h.trans_ne hf)).trans (if_pos h)))

section Arrival

variable {s : State} (hc : s.cfg.Ok) (hin : s.cfg.inLen = 10) (hopen : s.closed = false)
  (hbuf : s.buf = []) {snd d0 d1 d2 d3 d4 d5 ck : Byte}
include hc hin hopen hbuf

/-- A frame of R100's layout with the right checksum is applied, passed through and perhaps announced. -/
theorem push_inFrame_right {m : Msg}
    (hck : ck.toNat = (d0.toNat + d1.toNat + d2.toNat + d3.toNat + d4.toNat + d5.toNat) % 256)
    (hm : decodeFrame s.cfg (inFrame s.cfg snd d0 d1 d2 d3 d4 d5 ck) = .ok m) :
    push (inFrame s.cfg snd d0 d1 d2 d3 d4 d5 ck) s = { apply m s with
      out := s.out ++ [.data (inFrame s.cfg snd d0 d1 d2 d3 d4 d5 ck), .message m] ++ announcement m } := by
  have hvalid : validate s.cfg (inFrame s.cfg snd d0 d1 d2 d3 d4 d5 ck) = true :=
    (validate_tenBytes hin ..).mpr ⟨rfl, rfl, (eq_dataChecksum_iff ..).mpr hck⟩
  rw [push_of_frame hc hin hopen hbuf hvalid, applyFrame_of_decoded hm, frameEvents_of_decoded hm]
  simp

/-- A frame of R100's layout with a wrong checksum is reported. -/
theorem push_inFrame_wrong
    (hck : ¬ ck.toNat = (d0.toNat + d1.toNat + d2.toNat + d3.toNat + d4.toNat + d5.toNat) % 256) :
    push (inFrame s.cfg snd d0 d1 d2 d3 d4 d5 ck) s = { s with
      out := s.out ++ [.data (inFrame s.cfg snd d0 d1 d2 d3 d4 d5 ck),
        .messageError (inFrame s.cfg snd d0 d1 d2 d3 d4 d5 ck) .invalidFrame] } := by
  refine push_of_mismatch hc hin hopen hbuf rfl rfl rfl (Bool.eq_false_iff.mpr fun hvalid => hck ?_)
  obtain ⟨-, -, hck⟩ := (validate_tenBytes hin ..).mp hvalid
  exact (eq_dataChecksum_iff ..).mp hck

end Arrival

/-- Settles O38: the ten bytes decode to the reading of their data bytes. -/
theorem inboundReading : Obligations.InboundReading := by
  intro d0 d1 d2 d3 d4 d5 ck s hc hin hopen hbuf
  refine ⟨fun hck => ?_, fun hck => ?_⟩
  · have hdecode : decodeFrame s.cfg (inFrame s.cfg s.cfg.sndReading d0 d1 d2 d3 d4 d5 ck) =
        .ok (.reading (half d1 d0) (half d3 d2)) := decodeFrame_of_sndReading rfl
    exact congrArg Host.Outcome.next (push_inFrame_right hc hin hopen hbuf hck hdecode)
  · exact congrArg Host.Outcome.next (push_inFrame_wrong hc hin hopen hbuf hck)

/-- A configuration response with the right checksum writes and passes through the message its echoed type
selects; none of them is announced. -/
theorem push_config_right {s : State} (hc : s.cfg.Ok) (hin : s.cfg.inLen = 10) (hopen : s.closed = false)
    (hbuf : s.buf = []) (hd : s.cfg.CodesDistinct) {ty d1 d2 d3 d4 d5 ck : Byte} {m : Msg}
    (hck : ck.toNat = (ty.toNat + d1.toNat + d2.toNat + d3.toNat + d4.toNat + d5.toNat) % 256)
    (hm : decodeConfig s.cfg (inFrame s.cfg s.cfg.sndConfig ty d1 d2 d3 d4 d5 ck) = .ok m)
    (hquiet : announcement m = []) :
    push (inFrame s.cfg s.cfg.sndConfig ty d1 d2 d3 d4 d5 ck) s = { apply m s with
      out := s.out ++ [.data (inFrame s.cfg s.cfg.sndConfig ty d1 d2 d3 d4 d5 ck), .message m] } := by
  rw [push_inFrame_right hc hin hopen hbuf hck ((decodeFrame_of_sndConfig hd.1 rfl).trans hm), hquiet,
    List.append_nil]

/-- Settles O39, response by response; a wrong checksum is one case for all four. -/
theorem inboundConfigurationResponses : Obligations.InboundConfigurationResponses := by
  intro d1 d2 d3 d4 d5 ck s hc hd hin hopen hbuf F right good bad m
  obtain ⟨-, ⟨hpm, hfm, hdm⟩, ⟨hfp, hdp⟩, hdf⟩ := commandTypes_distinct hc
  have wrong (ty : Byte) (hck : ¬ right ty) :
      Host.Outcome.next (push (inFrame s.cfg s.cfg.sndConfig ty d1 d2 d3 d4 d5 ck) s) = bad ty :=
    congrArg Host.Outcome.next (push_inFrame_wrong hc hin hopen hbuf hck)
  refine ⟨fun hck => ?mode, fun hck => ?sleep, fun hck => ?firmware, fun hck => ?period,
    wrong _, wrong _, wrong _, wrong _⟩ <;> refine congrArg Host.Outcome.next ?_
  case mode =>
    exact push_config_right (m := .mode _) hc hin hopen hbuf hd hck (decodeConfig_of_cmdMode rfl) rfl
  case sleep =>
    exact push_config_right (m := .sleep _) hc hin hopen hbuf hd hck
      (decodeConfig_of_cmdPower hpm rfl) rfl
  case firmware =>
    exact push_config_right (m := .firmware _ _ _) hc hin hopen hbuf hd hck
      (decodeConfig_of_cmdFirmware hfm hfp rfl) rfl
  case period =>
    exact push_config_right (m := .period _) hc hin hopen hbuf hd hck
      (decodeConfig_of_cmdPeriod hdm hdp hdf rfl) rfl

/-! ### The register view -/

/-- A register with its bits below a V bit of 1 reads the bits above that power of two. -/
theorem packed_toNat {w : Nat} (v : BitVec w) : ((1 : BitVec 1) ++ v).toNat = 2 ^ w + v.toNat := by
  rw [BitVec.toNat_append, ← Nat.shiftLeft_add_eq_or_of_lt v.isLt, Nat.shiftLeft_eq]
  simp

/-- A packed field reads 0 while PENDING, and its bits below a V bit of 1 otherwise (R51). -/
theorem packed_pending {α : Type} {w : Nat} (f : α → BitVec w) :
    (pendBit (.pending : Pend α) ++ pendBits f .pending).toNat = 0 := by
  simp [pendBit, pendBits]

theorem packed_val {α : Type} {w : Nat} (f : α → BitVec w) (a : α) :
    (pendBit (.val a) ++ pendBits f (.val a)).toNat = 2 ^ w + (f a).toNat :=
  packed_toNat (f a)

/-- Three bytes side by side. -/
theorem threeBytes_toNat (a b c : Byte) :
    (a ++ b ++ c).toNat = a.toNat * 65536 + b.toNat * 256 + c.toNat := by
  rw [BitVec.toNat_append, ← Nat.shiftLeft_add_eq_or_of_lt c.isLt, Nat.shiftLeft_eq, ← half, half_toNat]
  omega

/-- The counter fits its register (R43, R51). -/
theorem rc_lt_two_pow_rcWidth {s : State} (h : s.Inv) : s.rc < 2 ^ rcWidth s.cfg := by
  have hrc : s.rc ≤ s.cfg.retryBudget := by
    cases hsst : s.sst with
    | idle => simp [h.empty_counter (h.idle_iff_empty.mp hsst)]
    | processing =>
      obtain ⟨-, hhi, -⟩ := h.processing hsst
      exact hhi
  have hwidth : s.cfg.retryBudget + 1 < 2 ^ rcWidth s.cfg := Nat.lt_log2_self
  omega

/-- The scheduler bit tells an empty queue from a queue in service (I1). -/
theorem sstBit_toNat {s : State} (h : s.Inv) :
    (BitVec.ofBool (s.sst == .processing)).toNat = if s.q = [] then 0 else 1 := by
  by_cases hq : s.q = []
  · rw [if_pos hq, h.idle_iff_empty.mpr hq]
    rfl
  · have hsst : s.sst = .processing := by
      cases hsst : s.sst with
      | idle => exact absurd (h.idle_iff_empty.mp hsst) hq
      | processing => rfl
    rw [if_neg hq, hsst]
    rfl

/-- Settles O41, register by register: six packed fields, three status bits, two counts. -/
theorem registerViewReadsTheState : Obligations.RegisterViewReadsTheState := by
  intro s h
  refine ⟨?pm25, ?pm10, ?mode, ?sleeping, ?fw, ?period, ?closed, ?sched, ?rc, rfl⟩ <;>
    refine congrArg some ?_
  case pm25 =>
    rw [regPm25]
    cases s.pm25 with
    | pending => exact packed_pending _
    | val v => exact packed_val _ v
  case pm10 =>
    rw [regPm10]
    cases s.pm10 with
    | pending => exact packed_pending _
    | val v => exact packed_val _ v
  case mode =>
    rw [regMode]
    cases s.mode with
    | pending => rfl
    | val m => cases m <;> rfl
  case sleeping =>
    rw [regSleep]
    cases s.sleeping with
    | pending => rfl
    | val b => cases b <;> rfl
  case fw =>
    rw [regFw]
    cases s.fw with
    | pending => rfl
    | val f =>
      rw [packed_val, threeBytes_toNat]
      simp [Nat.add_assoc]
  case period =>
    rw [regPeriod]
    cases s.period with
    | pending => rfl
    | val b => exact packed_val _ b
  case closed =>
    rw [regClosed]
    cases s.closed <;> rfl
  case sched =>
    rw [regSched, BitVec.toNat_append, ← Nat.shiftLeft_add_eq_or_of_lt (BitVec.isLt _), Nat.shiftLeft_eq,
      sstBit_toNat h]
    cases s.timerArmed <;> rfl
  case rc =>
    rw [regRc, BitVec.toNat_ofNat, Nat.mod_eq_of_lt (rc_lt_two_pow_rcWidth h)]

end Sys2Proof.Machine
end

