-- ==== Sys2Proof/Proofs/Commands.lean ====
section
/-!
PROOFS. The seven requests of spec/44_commands.md: the call-boundary checks, then a first tick, the tail of
the queue, or the policy of a closed block.
-/

namespace Sys2Proof.Machine

open Sys2Proof

/-! ### The call boundary -/

/-- The tokens 0 and 1 are the two modes, every other token is invalid (R121, R280). -/
theorem modeOperand_of_invalid {mtok : Byte} (h0 : mtok ≠ 0) (h1 : mtok ≠ 1) :
    modeOperand mtok = .error .invalidMode :=
  (if_neg h0).trans (if_neg h1)

/-- Minutes from 0 to PERIOD_MAX are valid, all others out of range (R280). -/
theorem periodOperand_of_inRange {c : Config} {minutes : Int} (hlo : 0 ≤ minutes)
    (hhi : minutes ≤ c.periodMax) : periodOperand c minutes = .ok (.setPeriod (u8 minutes.toNat)) :=
  if_neg (by omega)

theorem periodOperand_of_outOfRange {c : Config} {minutes : Int}
    (h : minutes < 0 ∨ c.periodMax < minutes) : periodOperand c minutes = .error .periodOutOfRange :=
  if_pos h

/-- A request in range passes the call boundary as itself. -/
theorem exec_enqOf {r : Request} {s : State} (hr : requestOk s.cfg r) (tag : Token)
    (idstr : Option Text) : exec (enqOf r tag idstr) s = .next (call tag (.ok r) idstr s) := by
  cases r with
  | setMode m => cases m <;> rfl
  | setPeriod p =>
    have hperiod : periodOperand s.cfg p.toNat = .ok (.setPeriod p) := by
      rw [periodOperand_of_inRange (Int.natCast_nonneg _) (Int.ofNat_le.mpr hr), Int.toNat_natCast, u8_self]
    simp only [enqOf, exec, execEnqSetPeriod, hperiod]
  | _ => rfl

/-- A checked request with an id that parses reaches ENQUEUE (R280). -/
theorem call_of_parsed {idstr : Option Text} {id : Option Half} (h : parseId idstr = .ok id) (tag : Token)
    (r : Request) (s : State) :
    call tag (.ok r) idstr s = enqueue { req := r, id := id, tag := tag } s := by
  simp only [call, h]

/-- A checked request with an id that does not parse is turned away. -/
theorem call_of_malformed {idstr : Option Text} {e : InputReason} (h : parseId idstr = .error e)
    (tag : Token) (r : Request) (s : State) :
    call tag (.ok r) idstr s = { s with out := s.out ++ [.inputError tag e] } := by
  simp only [call, h]
  rfl

/-- Settles O46: each check that fails turns the call away with its own reason. -/
theorem inputErrorsChangeNothingElse : Obligations.InputErrorsChangeNothingElse := by
  intro tag idstr s
  refine ⟨fun mtok h0 h1 => ?mode, fun minutes hm => ?period, fun r hr hid => ?id⟩
  case mode =>
    simp only [exec, execEnqSetMode, modeOperand_of_invalid h0 h1]
    rfl
  case period =>
    simp only [exec, execEnqSetPeriod, periodOperand_of_outOfRange hm]
    rfl
  case id => rw [exec_enqOf hr, call_of_malformed hid]

/-! ### Into an idle scheduler -/

/-- The frame a descriptor writes, from the layout of R104. -/
theorem descFrame_eq (c : Config) (d : Desc) :
    descFrame c d = commandFrame c (typeModeArg c d.req).1 (typeModeArg c d.req).2.1
      (typeModeArg c d.req).2.2 (targetId c d.id) :=
  encodeCommand_eq c d.req d.id

/-- A command into an idle scheduler is queued alone and gets its first tick (R255). -/
theorem enqueue_of_idle {s : State} (h : IdleOpen s) (d : Desc) :
    enqueue d s = { prepare (requestOp d.req) s with
      q := [d], rc := 1, sst := .processing, timerArmed := true,
      out := s.out ++ [.write (descFrame s.cfg d)] } := by
  obtain ⟨hopen, hidle, hempty, hcounter, hbudget⟩ := h
  have htick : enqueue d s = tick { s with q := [d], sst := .processing } := by
    simp [enqueue, hopen, hidle, hempty]
  have hfirst := tick_of_first (s := { s with q := [d], sst := .processing }) rfl hcounter hbudget
  rw [htick, hfirst]
  cases hop : requestOp d.req <;> simp [handOver, prepare, hop]

/-- A checked request into an idle scheduler: its command is queued, its fields are PENDING, its frame is
written. -/
theorem call_of_idle {s : State} (h : IdleOpen s) {idstr : Option Text} {id : Option Half}
    (hid : parseId idstr = .ok id) (tag : Token) (r : Request) :
    call tag (.ok r) idstr s = { prepare (requestOp r) s with
      q := [{ req := r, id := id, tag := tag }], rc := 1, sst := .processing, timerArmed := true,
      out := s.out ++ [.write (commandFrame s.cfg (typeModeArg s.cfg r).1 (typeModeArg s.cfg r).2.1
        (typeModeArg s.cfg r).2.2 (targetId s.cfg id))] } := by
  rw [call_of_parsed hid, enqueue_of_idle h, descFrame_eq]

/-- Settles O42: the four requests without a value, each with its own fields and frame. -/
theorem enqueueOfAQueryRunsItsFirstTick : Obligations.EnqueueOfAQueryRunsItsFirstTick := by
  intro tag idstr id s h hid
  have accepted (r : Request) :=
    congrArg (Host.Outcome.next (φ := Fault) (ρ := Refusal)) (call_of_idle h hid tag r)
  exact ⟨accepted .queryReading, accepted .getMode, accepted .getFirmware, accepted .getPeriod⟩

/-- Settles O43: the three requests with a value; the value is the frame's argument byte. -/
theorem enqueueOfASettingRunsItsFirstTick : Obligations.EnqueueOfASettingRunsItsFirstTick := by
  intro tag idstr id s h hid
  have accepted (r : Request) :=
    congrArg (Host.Outcome.next (φ := Fault) (ρ := Refusal)) (call_of_idle h hid tag r)
  refine ⟨fun mtok hmtok => ?mode, fun sleep => ?sleep, fun minutes hlo hhi => ?period⟩
  case mode =>
    obtain rfl | rfl : mtok = 0 ∨ mtok = 1 := by bv_omega
    · exact accepted (.setMode .active)
    · exact accepted (.setMode .query)
  case sleep =>
    cases sleep with
    | true => exact accepted (.setSleep true)
    | false => exact accepted (.setSleep false)
  case period =>
    simp only [exec, execEnqSetPeriod, periodOperand_of_inRange hlo hhi]
    exact accepted (.setPeriod (u8 minutes.toNat))

/-! ### Behind others and after CLOSE -/

/-- Settles O44: the second branch of ENQUEUE. -/
theorem enqueueBehindOthersOnlyAppends : Obligations.EnqueueBehindOthersOnlyAppends := by
  intro r tag idstr id s hr hopen hsst hid
  rw [exec_enqOf hr, call_of_parsed hid]
  simp [enqueue, hopen, hsst]

/-- Settles O45: the first branch of ENQUEUE, by policy. -/
theorem enqueueAfterCloseFollowsThePolicy : Obligations.EnqueueAfterCloseFollowsThePolicy := by
  intro r tag idstr id s hr hclosed hid
  rw [exec_enqOf hr, call_of_parsed hid]
  rw [enqueue, if_pos hclosed]
  cases s.cfg.closedEnqueue <;> rfl

/-! ### What counts as fulfilled -/

/-- Settles O51, operation by operation over the observed field. -/
theorem fulfilmentPredicates : Obligations.FulfilmentPredicates := by
  intro s v
  refine ⟨?query, fun m => ?setMode, ?getMode, fun b => ?setSleep, ?getFirmware, fun p => ?setPeriod,
    ?getPeriod⟩
  case query => cases h25 : s.pm25 <;> cases h10 : s.pm10 <;> simp [outcome, h25, h10, eq_comm]
  case setMode => simp [outcome, eq_comm]
  case getMode => cases h : s.mode <;> simp [outcome, h, eq_comm]
  case setSleep => simp [outcome, eq_comm]
  case getFirmware => cases h : s.fw <;> simp [outcome, h, eq_comm]
  case setPeriod => simp [outcome, eq_comm]
  case getPeriod => cases h : s.period <;> simp [outcome, h, eq_comm]

end Sys2Proof.Machine
end

