-- ==== Sys2Proof/Proofs/Timer.lean ====
section
/-!
PROOFS. The timer's step of spec/43_scheduler.md: a head is retried, settled or failed, in queue order,
within its budget, and so the block becomes quiescent.
-/

namespace Sys2Proof.Machine

open Sys2Proof

/-! ### The three outcomes of a timer step -/

/-- A predicate reads the sensor-observed fields only (R241). -/
theorem outcome_of_fields (r : Request) (s : State) (rc : Nat) (armed : Bool) (out : List Event) :
    outcome r { s with rc := rc, timerArmed := armed, out := out } = outcome r s := by
  cases r <;> rfl

/-- The hand-over sets the counter and the timer itself. -/
theorem handOver_of_fields (rest : List Desc) (s : State) (rc : Nat) (armed : Bool) (out : List Event) :
    handOver rest { s with rc := rc, timerArmed := armed, out := out } =
      handOver rest { s with out := out } := by
  cases rest with
  | nil => rfl
  | cons d rest => cases hop : requestOp d.req <;> simp [handOver, prepare, hop]

/-- The step of the armed timer is a tick on the queue of the disarmed state. -/
theorem fireTimer_of_queue {s : State} {q : List Desc} (hq : s.q = q) :
    fireTimer s = tickQueue q { s with timerArmed := false } := by
  subst hq
  rfl

section Head

variable {s : State} {d : Desc} {rest : List Desc} (hq : s.q = d :: rest) (hrc : 1 ≤ s.rc)
include hq hrc

/-- The armed timer writes an unfulfilled head once more (R249). -/
theorem fireTimer_retry (harmed : s.timerArmed = true) (hb : s.rc < s.cfg.retryBudget)
    (ho : outcome d.req s = none) :
    fireTimer s = { s with rc := s.rc + 1, out := s.out ++ [.write (descFrame s.cfg d)] } := by
  have htick := tickQueue_retry (rest := rest) (s := { s with timerArmed := false })
    (Nat.pos_iff_ne_zero.mp hrc) hb ((outcome_of_fields d.req s s.rc false s.out).trans ho)
  rw [fireTimer_of_queue hq, htick, ← harmed]

/-- It settles a fulfilled head and hands over (R248). -/
theorem fireTimer_settle {v : Value} (hb : s.rc < s.cfg.retryBudget) (ho : outcome d.req s = some v) :
    fireTimer s = handOver rest { s with out := s.out ++ [.settle d.tag (.success v)] } := by
  have htick := tickQueue_settle (rest := rest) (s := { s with timerArmed := false })
    (Nat.pos_iff_ne_zero.mp hrc) hb ((outcome_of_fields d.req s s.rc false s.out).trans ho)
  rw [fireTimer_of_queue hq, htick]
  exact handOver_of_fields rest s s.rc false _

/-- It fails a head whose budget is spent and hands over, whatever the predicate says (R247). -/
theorem fireTimer_exhaust (hb : 1 ≤ s.cfg.retryBudget) (hspent : s.cfg.retryBudget ≤ s.rc) :
    fireTimer s = handOver rest { s with out := s.out ++ [.settle d.tag (.failure .commandExhausted)] } := by
  have htick := tickQueue_exhaust (d := d) (rest := rest) (s := { s with timerArmed := false })
    (Nat.pos_iff_ne_zero.mp hrc) hb hspent
  rw [fireTimer_of_queue hq, htick]
  exact handOver_of_fields rest s s.rc false _

end Head

/-- Settles O48: TIMER while armed is the timer's step, which retries the head. -/
theorem timerRetriesAnUnfulfilledHead : Obligations.TimerRetriesAnUnfulfilledHead := by
  intro s d rest harmed hq hrc hb ho
  rw [exec_timer_armed harmed, fireTimer_retry hq hrc harmed hb ho]

/-- Settles O49: the timer's step settles the head. -/
theorem timerSettlesAFulfilledHead : Obligations.TimerSettlesAFulfilledHead := by
  intro s d rest v harmed hq hrc hb ho
  rw [exec_timer_armed harmed, fireTimer_settle hq hrc hb ho]

/-- Settles O50: the timer's step fails the head. -/
theorem timerExhaustsTheHead : Obligations.TimerExhaustsTheHead := by
  intro s d rest harmed hq hrc hb hspent
  rw [exec_timer_armed harmed, fireTimer_exhaust hq hrc hb hspent]

/-! ### When TIMER is enabled -/

/-- Settles O47: TIMER's own two branches, and the three answers to its packet. -/
theorem timerIsEnabledIffArmed : Obligations.TimerIsEnabledIffArmed := by
  intro s
  refine ⟨exec_timer_armed, exec_timer_disarmed, fun hinv hclosed => ?closed,
    fun p rest hchan hcode => ⟨fun hblock harmed => ?runs, fun hblock hdisarmed => ?marked,
      fun hother => ?refused⟩⟩
  case closed =>
    obtain ⟨-, hdisarmed, -⟩ := hinv.closed hclosed
    exact exec_timer_disarmed hdisarmed
  all_goals have hdecode : decode s.cfg p.code p.ops = .ok .timer := by rw [hcode]; rfl
  case runs =>
    have htimer := exec_timer_armed (s := { s with chan := rest }) harmed
    rw [step_of_proper hchan hdecode hblock, htimer]
    rfl
  case marked =>
    have htimer := exec_timer_disarmed (s := { s with chan := rest }) hdisarmed
    rw [step_of_proper hchan hdecode hblock, htimer]
    rfl
  case refused => exact step_of_wrongIssuer hchan hdecode hother

/-! ### Settlements in queue order -/

theorem settledTags_append (es fs : List Event) :
    settledTags (es ++ fs) = settledTags es ++ settledTags fs := by
  induction es with
  | nil => rfl
  | cons e es ih => cases e <;> simp [settledTags, ih]

/-- The settlements of a leading part of the queue settle its tags in order. -/
theorem settledTags_settlements (q : List Desc) (rs : List Result) :
    settledTags (List.zipWith (fun d r => Event.settle d.tag r) q rs) = (q.take rs.length).map Desc.tag := by
  induction q generalizing rs with
  | nil => simp [settledTags]
  | cons d q ih =>
    cases rs with
    | nil => rfl
    | cons r rs => simp [settledTags, ih]

/-- Settles O54: a tick pops a leading part of the queue and settles it in order. -/
theorem settlesInQueueOrder : Obligations.SettlesInQueueOrder := by
  intro s t h
  obtain ⟨-, rfl⟩ := exec_timer_next h
  obtain ⟨k, ws, rs, hk, hq, rfl, hout, hws⟩ := (tick_ticked { s with timerArmed := false }).out
  refine ⟨rs.length, hk, hq rfl, ?_⟩
  have hnew : newEvents s (fireTimer s) = List.zipWith (fun d r => Event.settle d.tag r) s.q rs ++ ws := by
    rw [newEvents, fireTimer, hout, List.append_assoc, List.drop_left]
  rw [hnew, settledTags_append, settledTags_settlements]
  obtain rfl | ⟨f, rfl⟩ := hws <;> simp [settledTags]

/-! ### Runs without input -/

/-- A run's first step. -/
theorem run_succ {s t : State} (h : step s = .next t) (k : Nat) :
    core.run (k + 1) s = core.run k t := by
  have hstep : core.step s = .next t := h
  simp only [Host.Core.run, hstep]

/-- With nothing on the channel the armed timer fires. -/
theorem step_of_armed {s : State} (hchan : s.chan = []) (harmed : s.timerArmed = true) :
    step s = .next (fireTimer s) := by
  rw [step_of_idle_channel hchan, if_pos harmed, exec_timer_armed harmed]

section Budget

variable {s : State} {d : Desc} {rest : List Desc} (hchan : s.chan = []) (harmed : s.timerArmed = true)
  (hq : s.q = d :: rest) (hrc : 1 ≤ s.rc) (ho : outcome d.req s = none)
include hchan harmed hq hrc ho

/-- Within the budget each step writes the head once more (R251). -/
theorem run_retries {k : Nat} (hk : s.rc + k ≤ s.cfg.retryBudget) :
    core.run k s = .next { s with
      rc := s.rc + k, out := s.out ++ List.replicate k (.write (descFrame s.cfg d)) } := by
  induction k generalizing s with
  | zero => simp [Host.Core.run]
  | succ k ih =>
    have hfire := fireTimer_retry hq hrc harmed (by omega) ho
    rw [run_succ (step_of_armed hchan harmed), hfire]
    have hrest := ih (s := { s with rc := s.rc + 1, out := s.out ++ [.write (descFrame s.cfg d)] })
      hchan harmed hq (Nat.le_add_left 1 s.rc)
      ((outcome_of_fields d.req s _ s.timerArmed _).trans ho) (by simp only; omega)
    rw [hrest]
    simp [List.replicate_succ, Nat.add_assoc, Nat.add_comm 1 k]

/-- The step after the last write of the budget fails the head and hands over (R252). -/
theorem run_exhausts {k : Nat} (hk : s.rc + k = s.cfg.retryBudget) :
    core.run (k + 1) s = .next (handOver rest { s with
      out := s.out ++ List.replicate k (.write (descFrame s.cfg d)) ++
        [.settle d.tag (.failure .commandExhausted)] }) := by
  induction k generalizing s with
  | zero =>
    rw [run_succ (step_of_armed hchan harmed), fireTimer_exhaust hq hrc (by omega) (by omega)]
    simp [Host.Core.run]
  | succ k ih =>
    have hfire := fireTimer_retry hq hrc harmed (by omega) ho
    rw [run_succ (step_of_armed hchan harmed), hfire]
    have hrest := ih (s := { s with rc := s.rc + 1, out := s.out ++ [.write (descFrame s.cfg d)] })
      hchan harmed hq (Nat.le_add_left 1 s.rc)
      ((outcome_of_fields d.req s _ s.timerArmed _).trans ho) (by simp only; omega)
    rw [hrest]
    refine congrArg Host.Outcome.next ((handOver_of_fields rest s (s.rc + 1) s.timerArmed _).trans ?_)
    simp [List.replicate_succ]

end Budget

/-- Settles O52: retries up to the budget, then the failure. -/
theorem exactlyTheBudgetOfWrites : Obligations.ExactlyTheBudgetOfWrites := by
  intro s d rest hchan harmed hq hrc hb ho
  constructor
  · intro k hk
    rw [run_retries hchan harmed hq hrc.ge ho (by omega), hrc]
  · have hrun := run_exhausts hchan harmed hq hrc.ge ho (k := s.cfg.retryBudget - 1) (by omega)
    rwa [Nat.sub_add_cancel hb] at hrun

/-! ### Quiescence -/

/-- The timer steps the queued commands can still take: the budget for each, less the ticks of the head after
its first. -/
def ticksLeft (s : State) : Nat := s.q.length * s.cfg.retryBudget - (s.rc - 1)

/-- What a hand-over leaves of the queue, the counter and the parameters. -/
theorem handOver_queue (rest : List Desc) (s : State) :
    (handOver rest s).q = rest ∧ (handOver rest s).rc ≤ 1 ∧ (handOver rest s).cfg = s.cfg := by
  cases rest <;> simp [handOver]

/-- Every step of the armed timer takes one of the steps left (R368). -/
theorem ticksLeft_fireTimer {s : State} (h : s.Inv) (harmed : s.timerArmed = true) :
    ticksLeft (fireTimer s) < ticksLeft s := by
  obtain ⟨hticking, hne, hrc, hb⟩ := h.ticking harmed
  obtain ⟨d, rest, hq⟩ := List.exists_cons_of_ne_nil hne
  have hbudget : 1 ≤ s.cfg.retryBudget := one_le_retryBudget hticking.config
  have hlen : s.q.length * s.cfg.retryBudget = rest.length * s.cfg.retryBudget + s.cfg.retryBudget := by
    rw [hq, List.length_cons, Nat.succ_mul]
  have handed : ∀ e, ticksLeft (handOver rest { s with out := s.out ++ [e] }) < ticksLeft s := by
    intro e
    obtain ⟨hq', hrc', hcfg'⟩ := handOver_queue rest { s with out := s.out ++ [e] }
    simp only [ticksLeft, hq', hcfg', hlen]
    omega
  by_cases hlt : s.rc < s.cfg.retryBudget
  · cases ho : outcome d.req s with
    | none =>
      rw [fireTimer_retry hq hrc harmed hlt ho]
      simp only [ticksLeft, hlen]
      omega
    | some v =>
      rw [fireTimer_settle hq hrc hlt ho]
      exact handed _
  · rw [fireTimer_exhaust hq hrc hbudget (by omega)]
    exact handed _

/-- A disarmed block that meets the invariants has nothing queued (I3). -/
theorem State.Inv.empty_of_disarmed {s : State} (h : s.Inv) (hdisarmed : s.timerArmed = false) :
    s.q = [] := by
  cases hsst : s.sst with
  | idle => exact h.idle_iff_empty.mp hsst
  | processing =>
    obtain ⟨-, -, harmed⟩ := h.processing hsst
    simp [hdisarmed] at harmed

/-- Without input the block becomes quiescent within the steps left. -/
theorem run_quiescent {s : State} (h : s.Inv) (hchan : s.chan = []) :
    ∃ k, k ≤ ticksLeft s ∧ ∃ t, core.run k s = .next t ∧ t.q = [] ∧ t.timerArmed = false := by
  induction hn : ticksLeft s using Nat.strong_induction_on generalizing s with
  | h n ih =>
    subst hn
    cases harmed : s.timerArmed with
    | false => exact ⟨0, Nat.zero_le _, s, rfl, h.empty_of_disarmed harmed, harmed⟩
    | true =>
      have hless := ticksLeft_fireTimer h harmed
      obtain ⟨k, hk, t, hrun, hquiet⟩ := ih _ hless (fireTimer_inv h harmed)
        ((fireTimer_served s).chan.trans hchan) rfl
      exact ⟨k + 1, by omega, t, (run_succ (step_of_armed hchan harmed) k).trans hrun, hquiet⟩

/-- Settles O55: the steps left are at most the budget for each queued command. -/
theorem quiescentWithinTheBudget : Obligations.QuiescentWithinTheBudget := by
  intro s h hchan
  obtain ⟨k, hk, hrun⟩ := run_quiescent h hchan
  exact ⟨k, hk.trans (Nat.sub_le _ _), hrun⟩

end Sys2Proof.Machine
end

