-- ==== Sys2Proof/Proofs/Writes.lean ====
section
/-!
PROOFS. When the block writes a frame: at most once per transaction, from idle only in an accepted request,
and what an outbound frame row stands for (spec/43_scheduler.md, spec/30_encoding.md section 2).
-/

namespace Sys2Proof.Machine

open Sys2Proof

/-! ### At most one write -/

theorem countP_of_out {s t : State} {es : List Event} (h : t.out = s.out ++ es)
    (hes : es.countP isWrite = 0) : t.out.countP isWrite = s.out.countP isWrite := by
  rw [h, List.countP_append, hes, Nat.add_zero]

/-- An idle block is disarmed, and its next command is the first (I1, I2, I4). -/
theorem State.Inv.of_idle {s : State} (h : s.Inv) (hidle : s.sst = .idle) :
    s.timerArmed = false ∧ s.q = [] ∧ s.rc = 0 := by
  have hq := h.idle_iff_empty.mp hidle
  refine ⟨?_, hq, h.empty_counter hq⟩
  by_contra harmed
  rw [h.armed (by simpa using harmed)] at hidle
  cases hidle

/-- A command into an idle block writes nothing, or the block is open and processes the command. -/
theorem enqueue_from_idle {s : State} (h : s.Inv) (hidle : s.sst = .idle) (d : Desc) :
    (enqueue d s).out.countP isWrite = s.out.countP isWrite ∨
    (s.closed = false ∧ (enqueue d s).sst = .processing) := by
  obtain ⟨-, hq, hrc⟩ := h.of_idle hidle
  obtain ⟨-, he | he⟩ | ⟨-, hsst, -⟩ | ⟨hopen, -, -⟩ := enqueue_cases d s
  · exact .inl (by rw [he])
  · rw [he]; exact .inl (countP_of_out (emit_out ..) rfl)
  · rw [hidle] at hsst; cases hsst
  · rw [enqueue_of_idle ⟨hopen, hidle, hq, hrc, one_le_retryBudget h.config⟩]
    exact .inr ⟨hopen, rfl⟩

/-- Settles O53: at most one new event is a write; from idle only ENQUEUE on an open block can write. -/
theorem atMostOneWriteEach : Obligations.AtMostOneWriteEach := by
  intro i s t h
  constructor
  · obtain ⟨es, hout, hes⟩ := (exec_appended h).out
    rw [hout, List.countP_append]
    omega
  intro hinv hidle
  obtain ⟨hdisarmed, -⟩ := hinv.of_idle hidle
  obtain ⟨chunk, -, rfl⟩ | ⟨-, harmed, -⟩ | ⟨-, rfl⟩ | ⟨e, -, rfl⟩ | ⟨r, id, -, -, rfl⟩ |
    ⟨hreq, tag, req, idstr, -, -, -, -, -, rfl⟩ := exec_cases h
  · obtain ⟨es, hout, hes⟩ := push_writes chunk s
    exact .inl (countP_of_out hout hes)
  · rw [hdisarmed] at harmed; cases harmed
  · obtain ⟨-, es, hout, hes⟩ := closeBlock_frame s
    exact .inl (countP_of_out hout hes)
  · exact .inl (countP_of_out (emit_out ..) rfl)
  · rw [writeFrame_disarmed hdisarmed]; exact .inl rfl
  · obtain ⟨e, he⟩ | ⟨r, id, -, -, he⟩ := call_cases tag req idstr s <;> rw [he]
    · exact .inl (countP_of_out (emit_out ..) rfl)
    · obtain hsame | ⟨hopen, hsst⟩ := enqueue_from_idle hinv hidle ⟨r, id, tag⟩
      · exact .inl hsame
      · exact .inr ⟨hreq, hopen, hsst⟩

/-! ### Outbound frame rows -/

/-- A row is the timer's step where that step writes its frame, and nothing where it does not (log 8). -/
theorem writeFrame_of_mem {r : Request} {id : Half} {s : State} (harmed : s.timerArmed = true)
    (h : .write (encodeCommand s.cfg r (some id)) ∈ newEvents s (fireTimer s)) :
    writeFrame r id s = fireTimer s :=
  if_pos (by simpa [timerWrites, harmed, newEvents] using h)

theorem writeFrame_of_not_mem {r : Request} {id : Half} {s : State}
    (h : .write (encodeCommand s.cfg r (some id)) ∉ newEvents s (fireTimer s)) :
    writeFrame r id s = s := by
  obtain hsame | ⟨-, -, hmem⟩ := writeFrame_cases r id s
  · exact hsame
  · exact absurd hmem h

/-- A well-formed outbound row carries the checksum ENCODE computes (R105). -/
theorem checksum_of_wf {c : Config} {r : Request} {id : Half} {ck : Byte}
    (h : Instr.wf c (outOf r id ck) = true) : ck = outChecksum c r id := by
  cases r with
  | setPeriod p =>
    obtain ⟨hck, -⟩ : ck = outChecksum c (.setPeriod p) id ∧ p.toNat ≤ c.periodMax := by
      simpa [outOf, Instr.wf] using h
    exact hck
  | _ => simpa [outOf, Instr.wf] using h

/-- Settles O59: the row's frame is ENCODE's, so the row is the timer's step exactly where that writes it. -/
theorem outboundFramesAreWritten : Obligations.OutboundFramesAreWritten := by
  intro r id ck s row F
  have hF : encodeCommand s.cfg r (some id) = F := encodeCommand_eq ..
  have hrow : exec row s = .next (writeFrame r id s) := exec_outOf r id ck s
  refine ⟨fun t ht hmem => ?written, fun t ht hmem => ?other, fun hdisarmed => ?disarmed,
    fun d rest harmed hq hd hid hrc hb ho => ?retry, fun hwf => ?code⟩
  case written =>
    obtain ⟨harmed, rfl⟩ := exec_timer_next ht
    rw [hrow, writeFrame_of_mem harmed (hF ▸ hmem)]
  case other =>
    obtain ⟨-, rfl⟩ := exec_timer_next ht
    rw [hrow, writeFrame_of_not_mem (hF ▸ hmem)]
  case disarmed => rw [hrow, writeFrame_disarmed hdisarmed]
  case retry =>
    subst hd hid
    have hframe : descFrame s.cfg d = F := descFrame_eq s.cfg d
    have hfire := fireTimer_retry hq hrc harmed hb ho
    rw [hframe] at hfire
    have hmem : .write F ∈ newEvents s (fireTimer s) := by simp [newEvents, hfire]
    rw [hrow, writeFrame_of_mem harmed (hF ▸ hmem), hfire]
  case code =>
    rw [← hF, encodeCode_outOf, checksum_of_wf hwf]
    rfl

end Sys2Proof.Machine
end

