-- ==== Sys2Proof/Proofs/Tags.lean ====
section
/-!
PROOFS. Caller tags are opaque (spec/70_reset_and_hazards.md section 2): every operation commutes with a
renaming of the tags.
-/

namespace Sys2Proof.Machine

open Sys2Proof

section Renaming

variable (f : Token → Token)

@[simp] theorem mapTag_buf (s : State) : (s.mapTag f).buf = s.buf := rfl
@[simp] theorem mapTag_cfg (s : State) : (s.mapTag f).cfg = s.cfg := rfl
@[simp] theorem mapTag_closed (s : State) : (s.mapTag f).closed = s.closed := rfl
@[simp] theorem mapTag_q (s : State) : (s.mapTag f).q = s.q.map (Desc.mapTag f) := rfl
@[simp] theorem mapTag_rc (s : State) : (s.mapTag f).rc = s.rc := rfl
@[simp] theorem mapTag_sst (s : State) : (s.mapTag f).sst = s.sst := rfl
@[simp] theorem mapTag_timerArmed (s : State) : (s.mapTag f).timerArmed = s.timerArmed := rfl
@[simp] theorem mapTag_out (s : State) : (s.mapTag f).out = s.out.map (Event.mapTag f) := rfl

theorem emit_mapTag (e : Event) (s : State) : emit (e.mapTag f) (s.mapTag f) = (emit e s).mapTag f := by
  simp [emit, State.mapTag]

/-! ### The decode path -/

/-- The events of a frame carry no tag. -/
theorem frameEvents_mapTag (c : Config) (F : List Byte) :
    (frameEvents c F).map (Event.mapTag f) = frameEvents c F := by
  unfold frameEvents
  cases decodeFrame c F with
  | error r => rfl
  | ok m =>
    cases m with
    | reading a b =>
      simp only [announcement]
      split <;> rfl
    | _ => rfl

theorem applyFrame_mapTag (F : List Byte) (s : State) :
    applyFrame F (s.mapTag f) = (applyFrame F s).mapTag f := by
  simp only [applyFrame, mapTag_cfg]
  cases decodeFrame s.cfg F with
  | error r => rfl
  | ok m => cases m <;> rfl

theorem handleValid_mapTag (F : List Byte) (s : State) :
    handleValid F (s.mapTag f) = (handleValid F s).mapTag f := by
  rw [handleValid_eq, handleValid_eq, applyFrame_mapTag]
  simp [State.mapTag, frameEvents_mapTag]

theorem dispose_mapTag (cand : List Byte) (s : State) :
    dispose cand (s.mapTag f) = (dispose cand s).mapTag f := by
  rw [dispose, dispose, apply_ite (State.mapTag f)]
  exact ite_congr rfl (fun _ => handleValid_mapTag f cand s)
    (fun _ => emit_mapTag f (.messageError cand .invalidFrame) s)

theorem scanHead_mapTag (s : State) : scanHead (s.mapTag f) = (scanHead s).mapTag f := by
  simp only [scanHead, mapTag_cfg, mapTag_buf]
  cases indexFrom s.cfg.tail (s.cfg.inLen - 1) s.buf with
  | none => rfl
  | some k =>
    simp only [apply_ite (State.mapTag f)]
    exact ite_congr rfl (fun _ => dispose_mapTag f _ (bufDrop s.cfg.inLen s)) (fun _ => rfl)

theorem scan_mapTag (s : State) : scan (s.mapTag f) = ((scan s).1.mapTag f, (scan s).2) := by
  simp only [scan, mapTag_cfg, mapTag_buf]
  cases indexFrom s.cfg.head 0 s.buf with
  | none => rfl
  | some k =>
    cases k with
    | zero => exact Prod.ext (scanHead_mapTag f s) rfl
    | succ k => rfl

theorem extractLoop_mapTag (n : Nat) (s : State) :
    extractLoop n (s.mapTag f) = (extractLoop n s).mapTag f := by
  induction n generalizing s with
  | zero => rfl
  | succ n ih =>
    rw [extractLoop, extractLoop, apply_ite (State.mapTag f), scan_mapTag]
    refine ite_congr rfl (fun _ => rfl) (fun _ => ?_)
    obtain ⟨t, goesOn⟩ := scan s
    cases goesOn with
    | true => exact ih t
    | false => rfl

theorem push_mapTag (chunk : List Byte) (s : State) :
    push chunk (s.mapTag f) = (push chunk s).mapTag f := by
  cases hc : s.closed with
  | true => rw [push_closed hc, push_closed (s := s.mapTag f) hc]
  | false =>
    rw [push_open hc, push_open (s := s.mapTag f) hc, extract, extract, ← extractLoop_mapTag]
    simp [State.mapTag, Event.mapTag]

/-! ### The scheduler -/

theorem outcome_mapTag (r : Request) (s : State) : outcome r (s.mapTag f) = outcome r s := by
  cases r <;> rfl

theorem prepare_mapTag (op : OpKind) (s : State) : prepare op (s.mapTag f) = (prepare op s).mapTag f := by
  cases op <;> rfl

/-- Preparing and counting a renamed head. -/
theorem countTick_prepareFirst_mapTag (d : Desc) (s : State) :
    countTick (prepareFirst (d.mapTag f) (s.mapTag f)) = (countTick (prepareFirst d s)).mapTag f := by
  have hprepare : prepareFirst (d.mapTag f) (s.mapTag f) = (prepareFirst d s).mapTag f := by
    rw [prepareFirst, prepareFirst, apply_ite (State.mapTag f)]
    exact ite_congr rfl (fun _ => prepare_mapTag f (requestOp d.req) s) (fun _ => rfl)
  rw [hprepare]
  rfl

theorem tickQueue_mapTag (q : List Desc) (s : State) :
    tickQueue (q.map (Desc.mapTag f)) (s.mapTag f) = (tickQueue q s).mapTag f := by
  induction q generalizing s with
  | nil => rfl
  | cons d rest ih =>
    have popped (r : Result) (u : State) :
        tickQueue (rest.map (Desc.mapTag f)) (popHead (rest.map (Desc.mapTag f))
          (emit (.settle (f d.tag) r) (u.mapTag f))) =
        (tickQueue rest (popHead rest (emit (.settle d.tag r) u))).mapTag f := by
      rw [← ih]
      exact congrArg (fun v => tickQueue _ (popHead _ v)) (emit_mapTag f (.settle d.tag r) u)
    have hreq : (d.mapTag f).req = d.req := rfl
    simp only [List.map_cons, tickQueue, countTick_prepareFirst_mapTag, outcome_mapTag, hreq,
      apply_ite (State.mapTag f)]
    generalize countTick (prepareFirst d s) = u
    refine ite_congr rfl (fun _ => popped _ u) (fun _ => ?_)
    cases outcome d.req u with
    | some v => exact popped _ u
    | none => simp [executeAndWait, execute, emit, State.mapTag, descFrame, Desc.mapTag, Event.mapTag]

theorem fireTimer_mapTag (s : State) : fireTimer (s.mapTag f) = (fireTimer s).mapTag f :=
  tickQueue_mapTag f s.q { s with timerArmed := false }

theorem exec_timer_mapTag (s : State) :
    exec .timer (s.mapTag f) = outcomeMapTag f (exec .timer s) := by
  cases harmed : s.timerArmed with
  | true =>
    rw [exec_timer_armed harmed, exec_timer_armed (s := s.mapTag f) harmed, fireTimer_mapTag]
    rfl
  | false =>
    rw [exec_timer_disarmed harmed, exec_timer_disarmed (s := s.mapTag f) harmed]
    rfl

theorem enqueue_mapTag (d : Desc) (s : State) :
    enqueue (d.mapTag f) (s.mapTag f) = (enqueue d s).mapTag f := by
  rw [enqueue, enqueue, apply_ite (State.mapTag f), apply_ite (State.mapTag f)]
  refine ite_congr rfl (fun _ => ?closed) (fun _ => ite_congr rfl (fun _ => ?idle) (fun _ => ?behind))
  case closed =>
    rw [mapTag_cfg]
    cases s.cfg.closedEnqueue with
    | failClosed => exact emit_mapTag f (.settle d.tag (.failure .connectionClosed)) s
    | dropUnsettled => rfl
  case idle =>
    rw [tick, tick, ← tickQueue_mapTag]
    simp [State.mapTag]
  case behind => simp [State.mapTag]

theorem call_mapTag (tag : Token) (req : Except InputReason Request) (idstr : Option Text) (s : State) :
    call (f tag) req idstr (s.mapTag f) = (call tag req idstr s).mapTag f := by
  unfold call
  cases req with
  | error e => exact emit_mapTag f (.inputError tag e) s
  | ok r =>
    cases parseId idstr with
    | error e => exact emit_mapTag f (.inputError tag e) s
    | ok id => exact enqueue_mapTag f { req := r, id := id, tag := tag } s

theorem closeBlock_mapTag (s : State) : closeBlock (s.mapTag f) = (closeBlock s).mapTag f := by
  cases hc : s.closed with
  | true =>
    rw [closeBlock_of_closed hc, closeBlock_of_closed (s := s.mapTag f) hc]
    exact emit_mapTag f (.notice .alreadyClosed) s
  | false =>
    have hdropped : droppedSettlements s.cfg.teardown (s.q.map (Desc.mapTag f)) =
        (droppedSettlements s.cfg.teardown s.q).map (Event.mapTag f) := by
      cases s.cfg.teardown
      · rfl
      · simp [droppedSettlements, Event.mapTag, Desc.mapTag]
    rw [closeBlock_of_open hc, closeBlock_of_open (s := s.mapTag f) hc]
    simp [State.mapTag, hdropped, Event.mapTag]

/-! ### Outbound frame rows -/

/-- A renamed event is a write exactly if the event is that write. -/
theorem mapTag_eq_write (e : Event) (frame : List Byte) : e.mapTag f = .write frame ↔ e = .write frame := by
  cases e <;> simp [Event.mapTag]

theorem timerWrites_mapTag (frame : List Byte) (s : State) :
    timerWrites frame (s.mapTag f) = timerWrites frame s := by
  have hmem (es : List Event) : (es.map (Event.mapTag f)).contains (.write frame) = es.contains (.write frame) := by
    rw [Bool.eq_iff_iff]
    simp [mapTag_eq_write]
  simp only [timerWrites, fireTimer_mapTag, mapTag_out, List.length_map, ← List.map_drop, hmem,
    mapTag_timerArmed]

theorem writeFrame_mapTag (r : Request) (id : Half) (s : State) :
    writeFrame r id (s.mapTag f) = (writeFrame r id s).mapTag f := by
  rw [writeFrame, writeFrame, apply_ite (State.mapTag f), timerWrites_mapTag]
  exact ite_congr rfl (fun _ => fireTimer_mapTag f s) (fun _ => rfl)

end Renaming

/-- Settles O60: every instruction is one of the operations above, with its tag renamed. -/
theorem tagsAreOpaque : Obligations.TagsAreOpaque := by
  intro f i s
  cases i with
  | timer => exact exec_timer_mapTag f s
  | close => exact congrArg Host.Outcome.next (closeBlock_mapTag f s)
  | transportError e => exact congrArg Host.Outcome.next (emit_mapTag f (.transportError e) s)
  | push | inReading | inModeResp | inSleepResp | inFirmwareResp | inPeriodResp =>
    exact congrArg Host.Outcome.next (push_mapTag f _ s)
  | enqQueryReading | enqSetMode | enqGetMode | enqSetSleep | enqGetFirmware | enqSetPeriod | enqGetPeriod =>
    exact congrArg Host.Outcome.next (call_mapTag f _ _ _ s)
  | outQueryReading | outSetMode | outGetMode | outSetSleep | outGetFirmware | outSetPeriod | outGetPeriod =>
    exact congrArg Host.Outcome.next (writeFrame_mapTag f _ _ s)

end Sys2Proof.Machine
end
